-- ==== Sys2Proof/Word.lean ====
section
/-! DEFINITION. The word types of the Machine (spec/00_scope.md R4, R7): every quantity is unsigned. -/

namespace Sys2Proof

/-- One byte: a memory cell, a general register, a timer, the immediate `NN` (REG_W = TIMER_W = 8). -/
abbrev Byte := BitVec 8

/-- Sixteen bits: an opcode, `I`, `pc`, a stack slot (I_W = PC_W = 16). -/
abbrev Word := BitVec 16

/-- Twelve bits: an address of main memory (MEM_SIZE = 4096), and the immediate `NNN`. -/
abbrev Addr := BitVec 12

/-- Four bits: one nibble of an opcode, and the immediate `N`. -/
abbrev Nibble := BitVec 4

/-- The number of a general register, 0..15 (spec/10_state.md R20). -/
abbrev Reg := Fin 16

end Sys2Proof
end

