-- ==== Sys2Proof/Syntax.lean ====
section
/-! DEFINITION. The instructions: one constructor per row of the opcode map (spec/30_encoding.md R74), in the map's
order, with the operand fields of its format (R71, R72). -/

namespace Sys2Proof

/-- An instruction with its operands. A register number is a `Reg`, `NNN` an `Addr`, `NN` a `Byte`, `N` a `Nibble`:
each operand's type holds exactly the values its field can hold (R73). -/
inductive Instr where
  /-- `00E0` -/
  | cls
  /-- `00EE` -/
  | ret
  /-- `1NNN` -/
  | jpNnn (nnn : Addr)
  /-- `2NNN` -/
  | callNnn (nnn : Addr)
  /-- `3XNN` -/
  | seVxNn (x : Reg) (nn : Byte)
  /-- `4XNN` -/
  | sneVxNn (x : Reg) (nn : Byte)
  /-- `5XY0` -/
  | seVxVy (x y : Reg)
  /-- `6XNN` -/
  | ldVxNn (x : Reg) (nn : Byte)
  /-- `7XNN` -/
  | addVxNn (x : Reg) (nn : Byte)
  /-- `8XY0` -/
  | ldVxVy (x y : Reg)
  /-- `8XY1` -/
  | orVxVy (x y : Reg)
  /-- `8XY2` -/
  | andVxVy (x y : Reg)
  /-- `8XY3` -/
  | xorVxVy (x y : Reg)
  /-- `8XY4` -/
  | addVxVy (x y : Reg)
  /-- `8XY5` -/
  | subVxVy (x y : Reg)
  /-- `8XY6`; the `Y` field is decoded and ignored (R72; spec/42_load_alu.md R128). -/
  | shrVx (x y : Reg)
  /-- `8XY7` -/
  | subnVxVy (x y : Reg)
  /-- `8XYE`; the `Y` field is decoded and ignored (R72; spec/42_load_alu.md R130). -/
  | shlVx (x y : Reg)
  /-- `9XY0` -/
  | sneVxVy (x y : Reg)
  /-- `ANNN` -/
  | ldINnn (nnn : Addr)
  /-- `BNNN` -/
  | jpV0Nnn (nnn : Addr)
  /-- `CXNN` -/
  | rndVxNn (x : Reg) (nn : Byte)
  /-- `DXYN` -/
  | drwVxVyN (x y : Reg) (n : Nibble)
  /-- `EX9E` -/
  | skpVx (x : Reg)
  /-- `EXA1` -/
  | sknpVx (x : Reg)
  /-- `FX07` -/
  | ldVxDt (x : Reg)
  /-- `FX0A` -/
  | ldVxK (x : Reg)
  /-- `FX15` -/
  | ldDtVx (x : Reg)
  /-- `FX18` -/
  | ldStVx (x : Reg)
  /-- `FX1E` -/
  | addIVx (x : Reg)
  /-- `FX29` -/
  | ldFVx (x : Reg)
  /-- `FX33` -/
  | ldBVx (x : Reg)
  /-- `FX55` -/
  | ldMiVx (x : Reg)
  /-- `FX65` -/
  | ldVxMi (x : Reg)
  deriving DecidableEq, Repr

end Sys2Proof
end

