-- ==== Sys2Proof/WellFormed.lean ====
section
/-! DEFINITION. What a well-formed instruction and a legal instruction word are (spec/30_encoding.md R73 to R76). -/

namespace Sys2Proof

/-- Each operand of an instruction with the width of the field that encodes it (R71, R72). -/
def Instr.operands : Instr → List (Nat × Nat)
  | .cls => []
  | .ret => []
  | .jpNnn nnn => [(nnn.toNat, 12)]
  | .callNnn nnn => [(nnn.toNat, 12)]
  | .seVxNn x nn => [(x.val, 4), (nn.toNat, 8)]
  | .sneVxNn x nn => [(x.val, 4), (nn.toNat, 8)]
  | .seVxVy x y => [(x.val, 4), (y.val, 4)]
  | .ldVxNn x nn => [(x.val, 4), (nn.toNat, 8)]
  | .addVxNn x nn => [(x.val, 4), (nn.toNat, 8)]
  | .ldVxVy x y => [(x.val, 4), (y.val, 4)]
  | .orVxVy x y => [(x.val, 4), (y.val, 4)]
  | .andVxVy x y => [(x.val, 4), (y.val, 4)]
  | .xorVxVy x y => [(x.val, 4), (y.val, 4)]
  | .addVxVy x y => [(x.val, 4), (y.val, 4)]
  | .subVxVy x y => [(x.val, 4), (y.val, 4)]
  | .shrVx x y => [(x.val, 4), (y.val, 4)]
  | .subnVxVy x y => [(x.val, 4), (y.val, 4)]
  | .shlVx x y => [(x.val, 4), (y.val, 4)]
  | .sneVxVy x y => [(x.val, 4), (y.val, 4)]
  | .ldINnn nnn => [(nnn.toNat, 12)]
  | .jpV0Nnn nnn => [(nnn.toNat, 12)]
  | .rndVxNn x nn => [(x.val, 4), (nn.toNat, 8)]
  | .drwVxVyN x y n => [(x.val, 4), (y.val, 4), (n.toNat, 4)]
  | .skpVx x => [(x.val, 4)]
  | .sknpVx x => [(x.val, 4)]
  | .ldVxDt x => [(x.val, 4)]
  | .ldVxK x => [(x.val, 4)]
  | .ldDtVx x => [(x.val, 4)]
  | .ldStVx x => [(x.val, 4)]
  | .addIVx x => [(x.val, 4)]
  | .ldFVx x => [(x.val, 4)]
  | .ldBVx x => [(x.val, 4)]
  | .ldMiVx x => [(x.val, 4)]
  | .ldVxMi x => [(x.val, 4)]

/-- Every listed operand fits its field. -/
def operandsFit (ops : List (Nat × Nat)) : Bool :=
  ops.all fun op => decide (op.1 < 2 ^ op.2)

/-- The check on an instruction: every operand fits the field that encodes it. The operand types already see to it,
so every `Instr` is well-formed (R75: every operand value of a legal instruction is legal). -/
def Instr.wellFormed (i : Instr) : Bool := operandsFit i.operands

/-- One row of the opcode map: a word `w` is the row's instruction iff `w &&& mask = pattern`. -/
structure OpcodeRow where
  pattern : Word
  mask : Word
  deriving DecidableEq, Repr

/-- The row of each instruction, its `match` and `mask` columns (R74). -/
def Instr.row : Instr → OpcodeRow
  | .cls => ⟨0x00E0, 0xFFFF⟩
  | .ret => ⟨0x00EE, 0xFFFF⟩
  | .jpNnn _ => ⟨0x1000, 0xF000⟩
  | .callNnn _ => ⟨0x2000, 0xF000⟩
  | .seVxNn _ _ => ⟨0x3000, 0xF000⟩
  | .sneVxNn _ _ => ⟨0x4000, 0xF000⟩
  | .seVxVy _ _ => ⟨0x5000, 0xF00F⟩
  | .ldVxNn _ _ => ⟨0x6000, 0xF000⟩
  | .addVxNn _ _ => ⟨0x7000, 0xF000⟩
  | .ldVxVy _ _ => ⟨0x8000, 0xF00F⟩
  | .orVxVy _ _ => ⟨0x8001, 0xF00F⟩
  | .andVxVy _ _ => ⟨0x8002, 0xF00F⟩
  | .xorVxVy _ _ => ⟨0x8003, 0xF00F⟩
  | .addVxVy _ _ => ⟨0x8004, 0xF00F⟩
  | .subVxVy _ _ => ⟨0x8005, 0xF00F⟩
  | .shrVx _ _ => ⟨0x8006, 0xF00F⟩
  | .subnVxVy _ _ => ⟨0x8007, 0xF00F⟩
  | .shlVx _ _ => ⟨0x800E, 0xF00F⟩
  | .sneVxVy _ _ => ⟨0x9000, 0xF00F⟩
  | .ldINnn _ => ⟨0xA000, 0xF000⟩
  | .jpV0Nnn _ => ⟨0xB000, 0xF000⟩
  | .rndVxNn _ _ => ⟨0xC000, 0xF000⟩
  | .drwVxVyN _ _ _ => ⟨0xD000, 0xF000⟩
  | .skpVx _ => ⟨0xE09E, 0xF0FF⟩
  | .sknpVx _ => ⟨0xE0A1, 0xF0FF⟩
  | .ldVxDt _ => ⟨0xF007, 0xF0FF⟩
  | .ldVxK _ => ⟨0xF00A, 0xF0FF⟩
  | .ldDtVx _ => ⟨0xF015, 0xF0FF⟩
  | .ldStVx _ => ⟨0xF018, 0xF0FF⟩
  | .addIVx _ => ⟨0xF01E, 0xF0FF⟩
  | .ldFVx _ => ⟨0xF029, 0xF0FF⟩
  | .ldBVx _ => ⟨0xF033, 0xF0FF⟩
  | .ldMiVx _ => ⟨0xF055, 0xF0FF⟩
  | .ldVxMi _ => ⟨0xF065, 0xF0FF⟩

/-- Does the word `w` match this row? -/
def OpcodeRow.matchesWord (r : OpcodeRow) (w : Word) : Bool := w &&& r.mask == r.pattern

/-- The rows of major groups 0x0 to 0x7, in the map's order. -/
def opcodeRowsLow : List OpcodeRow :=
  [⟨0x00E0, 0xFFFF⟩, ⟨0x00EE, 0xFFFF⟩, ⟨0x1000, 0xF000⟩, ⟨0x2000, 0xF000⟩, ⟨0x3000, 0xF000⟩,
   ⟨0x4000, 0xF000⟩, ⟨0x5000, 0xF00F⟩, ⟨0x6000, 0xF000⟩, ⟨0x7000, 0xF000⟩]

/-- The rows of major groups 0x8 to 0xD. -/
def opcodeRowsMid : List OpcodeRow :=
  [⟨0x8000, 0xF00F⟩, ⟨0x8001, 0xF00F⟩, ⟨0x8002, 0xF00F⟩, ⟨0x8003, 0xF00F⟩, ⟨0x8004, 0xF00F⟩,
   ⟨0x8005, 0xF00F⟩, ⟨0x8006, 0xF00F⟩, ⟨0x8007, 0xF00F⟩, ⟨0x800E, 0xF00F⟩, ⟨0x9000, 0xF00F⟩,
   ⟨0xA000, 0xF000⟩, ⟨0xB000, 0xF000⟩, ⟨0xC000, 0xF000⟩, ⟨0xD000, 0xF000⟩]

/-- The rows of major groups 0xE and 0xF. -/
def opcodeRowsHigh : List OpcodeRow :=
  [⟨0xE09E, 0xF0FF⟩, ⟨0xE0A1, 0xF0FF⟩, ⟨0xF007, 0xF0FF⟩, ⟨0xF00A, 0xF0FF⟩, ⟨0xF015, 0xF0FF⟩,
   ⟨0xF018, 0xF0FF⟩, ⟨0xF01E, 0xF0FF⟩, ⟨0xF029, 0xF0FF⟩, ⟨0xF033, 0xF0FF⟩, ⟨0xF055, 0xF0FF⟩,
   ⟨0xF065, 0xF0FF⟩]

/-- The opcode map as (match, mask) pairs, all 34 rows (R74). -/
def opcodeRows : List OpcodeRow := opcodeRowsLow ++ (opcodeRowsMid ++ opcodeRowsHigh)

/-- The check on a word: it matches some row of the map. A word that matches none is illegal (R76). -/
def legalWord (w : Word) : Bool := opcodeRows.any fun r => r.matchesWord w

end Sys2Proof
end

