-- ==== Sys2Proof/Decode.lean ====
section
/-! DEFINITION. The decoder (spec/30_encoding.md R70 to R76), total on any bytes, and after it the encoder. -/

namespace Sys2Proof

/-- Why bytes are no instruction. -/
inductive DecodeError where
  /-- Fewer than the two bytes an instruction takes (R70). -/
  | truncated (bytes : List Byte)
  /-- The word matches no row of the opcode map (R76). -/
  | illegal (bits : Word)
  deriving DecidableEq, Repr

/-- `n1 = bits[15:12]`, the major opcode group (R71). -/
def n1Field (bits : Word) : Nibble := bits.extractLsb' 12 4

/-- `n4 = N = bits[3:0]` (R71). -/
def n4Field (bits : Word) : Nibble := bits.extractLsb' 0 4

/-- A nibble as a register number. -/
def regOfNibble (n : Nibble) : Reg := ⟨n.toNat, n.isLt⟩

/-- `X = n2 = bits[11:8]` (R71). -/
def xField (bits : Word) : Reg := regOfNibble (bits.extractLsb' 8 4)

/-- `Y = n3 = bits[7:4]` (R71). -/
def yField (bits : Word) : Reg := regOfNibble (bits.extractLsb' 4 4)

/-- `NN = bits[7:0]` (R71). -/
def nnField (bits : Word) : Byte := bits.extractLsb' 0 8

/-- `NNN = bits[11:0]` (R71). -/
def nnnField (bits : Word) : Addr := bits.extractLsb' 0 12

/-- Group 0x0: the whole word must be `00E0` or `00EE` (R75). -/
def decodeGroup0 (bits : Word) : Except DecodeError Instr :=
  if bits = 0x00E0 then .ok .cls
  else if bits = 0x00EE then .ok .ret
  else .error (.illegal bits)

/-- Groups 0x5 and 0x9: `n4` must be 0 (R75). -/
def decodeXY0 (ctor : Reg → Reg → Instr) (bits : Word) : Except DecodeError Instr :=
  if n4Field bits = 0x0 then .ok (ctor (xField bits) (yField bits))
  else .error (.illegal bits)

/-- Group 0x8: selected by `n4`, the low nibble alone (R72, conflict C12). -/
def decodeGroup8 (bits : Word) : Except DecodeError Instr :=
  if n4Field bits = 0x0 then .ok (.ldVxVy (xField bits) (yField bits))
  else if n4Field bits = 0x1 then .ok (.orVxVy (xField bits) (yField bits))
  else if n4Field bits = 0x2 then .ok (.andVxVy (xField bits) (yField bits))
  else if n4Field bits = 0x3 then .ok (.xorVxVy (xField bits) (yField bits))
  else if n4Field bits = 0x4 then .ok (.addVxVy (xField bits) (yField bits))
  else if n4Field bits = 0x5 then .ok (.subVxVy (xField bits) (yField bits))
  else if n4Field bits = 0x6 then .ok (.shrVx (xField bits) (yField bits))
  else if n4Field bits = 0x7 then .ok (.subnVxVy (xField bits) (yField bits))
  else if n4Field bits = 0xE then .ok (.shlVx (xField bits) (yField bits))
  else .error (.illegal bits)

/-- Group 0xE: selected by the whole low byte (R75). -/
def decodeGroupE (bits : Word) : Except DecodeError Instr :=
  if nnField bits = 0x9E then .ok (.skpVx (xField bits))
  else if nnField bits = 0xA1 then .ok (.sknpVx (xField bits))
  else .error (.illegal bits)

/-- Group 0xF: selected by the whole low byte (R75). -/
def decodeGroupF (bits : Word) : Except DecodeError Instr :=
  if nnField bits = 0x07 then .ok (.ldVxDt (xField bits))
  else if nnField bits = 0x0A then .ok (.ldVxK (xField bits))
  else if nnField bits = 0x15 then .ok (.ldDtVx (xField bits))
  else if nnField bits = 0x18 then .ok (.ldStVx (xField bits))
  else if nnField bits = 0x1E then .ok (.addIVx (xField bits))
  else if nnField bits = 0x29 then .ok (.ldFVx (xField bits))
  else if nnField bits = 0x33 then .ok (.ldBVx (xField bits))
  else if nnField bits = 0x55 then .ok (.ldMiVx (xField bits))
  else if nnField bits = 0x65 then .ok (.ldVxMi (xField bits))
  else .error (.illegal bits)

/-- The instruction of a 16-bit word, or the name of the refusal: a pure function of the bits (R75). -/
def decodeWord (bits : Word) : Except DecodeError Instr :=
  if n1Field bits = 0x0 then decodeGroup0 bits
  else if n1Field bits = 0x1 then .ok (.jpNnn (nnnField bits))
  else if n1Field bits = 0x2 then .ok (.callNnn (nnnField bits))
  else if n1Field bits = 0x3 then .ok (.seVxNn (xField bits) (nnField bits))
  else if n1Field bits = 0x4 then .ok (.sneVxNn (xField bits) (nnField bits))
  else if n1Field bits = 0x5 then decodeXY0 .seVxVy bits
  else if n1Field bits = 0x6 then .ok (.ldVxNn (xField bits) (nnField bits))
  else if n1Field bits = 0x7 then .ok (.addVxNn (xField bits) (nnField bits))
  else if n1Field bits = 0x8 then decodeGroup8 bits
  else if n1Field bits = 0x9 then decodeXY0 .sneVxVy bits
  else if n1Field bits = 0xA then .ok (.ldINnn (nnnField bits))
  else if n1Field bits = 0xB then .ok (.jpV0Nnn (nnnField bits))
  else if n1Field bits = 0xC then .ok (.rndVxNn (xField bits) (nnField bits))
  else if n1Field bits = 0xD then .ok (.drwVxVyN (xField bits) (yField bits) (n4Field bits))
  else if n1Field bits = 0xE then decodeGroupE bits
  else if n1Field bits = 0xF then decodeGroupF bits
  else .error (.illegal bits)

/-- A register number as a nibble. -/
def nibbleOfReg (r : Reg) : Nibble := BitVec.ofNat 4 r.val

/-- Format `NNN`: `gggg aaaa aaaa aaaa` (R72). -/
def wordNnn (group : Nibble) (nnn : Addr) : Word := group ++ nnn

/-- Format `XNN`: `gggg xxxx kkkk kkkk` (R72). -/
def wordXnn (group : Nibble) (x : Reg) (nn : Byte) : Word := group ++ (nibbleOfReg x ++ nn)

/-- Formats `XY` and `XYN`: `gggg xxxx yyyy nnnn` (R72). -/
def wordXyn (group : Nibble) (x y : Reg) (n : Nibble) : Word :=
  group ++ (nibbleOfReg x ++ (nibbleOfReg y ++ n))

/-- The word of an instruction, from the formats of R72 and the fixed bits of R74. -/
def encodeWord : Instr → Word
  | .cls => 0x00E0
  | .ret => 0x00EE
  | .jpNnn nnn => wordNnn 0x1 nnn
  | .callNnn nnn => wordNnn 0x2 nnn
  | .seVxNn x nn => wordXnn 0x3 x nn
  | .sneVxNn x nn => wordXnn 0x4 x nn
  | .seVxVy x y => wordXyn 0x5 x y 0x0
  | .ldVxNn x nn => wordXnn 0x6 x nn
  | .addVxNn x nn => wordXnn 0x7 x nn
  | .ldVxVy x y => wordXyn 0x8 x y 0x0
  | .orVxVy x y => wordXyn 0x8 x y 0x1
  | .andVxVy x y => wordXyn 0x8 x y 0x2
  | .xorVxVy x y => wordXyn 0x8 x y 0x3
  | .addVxVy x y => wordXyn 0x8 x y 0x4
  | .subVxVy x y => wordXyn 0x8 x y 0x5
  | .shrVx x y => wordXyn 0x8 x y 0x6
  | .subnVxVy x y => wordXyn 0x8 x y 0x7
  | .shlVx x y => wordXyn 0x8 x y 0xE
  | .sneVxVy x y => wordXyn 0x9 x y 0x0
  | .ldINnn nnn => wordNnn 0xA nnn
  | .jpV0Nnn nnn => wordNnn 0xB nnn
  | .rndVxNn x nn => wordXnn 0xC x nn
  | .drwVxVyN x y n => wordXyn 0xD x y n
  | .skpVx x => wordXnn 0xE x 0x9E
  | .sknpVx x => wordXnn 0xE x 0xA1
  | .ldVxDt x => wordXnn 0xF x 0x07
  | .ldVxK x => wordXnn 0xF x 0x0A
  | .ldDtVx x => wordXnn 0xF x 0x15
  | .ldStVx x => wordXnn 0xF x 0x18
  | .addIVx x => wordXnn 0xF x 0x1E
  | .ldFVx x => wordXnn 0xF x 0x29
  | .ldBVx x => wordXnn 0xF x 0x33
  | .ldMiVx x => wordXnn 0xF x 0x55
  | .ldVxMi x => wordXnn 0xF x 0x65

/-- The two bytes of a word, the high byte first: instructions are big-endian (spec/20_memory.md R52). -/
def wordBytes (w : Word) : List Byte := [w.extractLsb' 8 8, w.extractLsb' 0 8]

/-- The word of two bytes, the first of them the high one (R70). -/
def wordOfBytes (hi lo : Byte) : Word := hi ++ lo

/-- The bytes of an instruction as memory holds them. -/
def encode (i : Instr) : List Byte := wordBytes (encodeWord i)

/-- The decoder on bytes: the first instruction and the bytes after it. -/
def decode : List Byte → Except DecodeError (Instr × List Byte)
  | hi :: lo :: rest =>
    match decodeWord (wordOfBytes hi lo) with
    | .ok i => .ok (i, rest)
    | .error e => .error e
  | bytes => .error (.truncated bytes)

/-- The word whose `nbits` low bits are those of `w` and whose other bits are 0. -/
def wordOfTable (nbits w : Nat) : Word := BitVec.ofNat 16 (w % 2 ^ nbits)

/-- The instruction the decoder reads from the opcode table's numbering of a word (bit 0 the least significant bit of
the one 16-bit word). -/
def decodeTableWord (nbits w : Nat) : Option Instr :=
  match decode (wordBytes (wordOfTable nbits w)) with
  | .ok (i, _) => some i
  | .error _ => none

end Sys2Proof
end

