-- ==== Sys2Proof/Config.lean ====
section
/-! DEFINITION. What is fixed for the Machine (spec/00_scope.md R4) and its free values (R5). The font set, the
one parameter with a default table, stands in Machine/Font.lean. -/

namespace Sys2Proof.Config

/-- FONT_BASE: the first byte of the font set. -/
abbrev fontBase : Nat := 0x050

/-- FONT_SIZE: 16 glyphs of 5 bytes. -/
abbrev fontSize : Nat := 80

/-- PROG_BASE: where programs are loaded, and the reset value of `pc`. -/
abbrev progBase : Nat := 0x200

/-- MAX_ROM: the largest program in bytes. -/
abbrev maxRom : Nat := 3584

/-- PC_LIMIT: a step that begins with a `pc` above this finishes the Machine. -/
abbrev pcLimit : Nat := 4094

/-- The `n`-th byte that CXNN draws: a FREE VALUE (spec/42_load_alu.md R131, decision D13; notes/assumptions/13.md).
It has no body: nothing can be proved of its value, so a theorem holds for every random source. -/
opaque draw : Nat → Byte

end Sys2Proof.Config
end

