-- ==== Sys2Proof/Machine/Font.lean ====
section
/-! DEFINITION. The font set: the parameter FONT with the default table of spec/10_state.md R32. -/

namespace Sys2Proof.Config

/-- The glyphs of the digits 0 to 7. PRESUMED (notes/assumptions/12.md, unsafe): the source gives none of these bytes; they
are the spec's default, from general knowledge (R32). -/
def fontLow : List Byte :=
  [0xF0, 0x90, 0x90, 0x90, 0xF0] ++ ([0x20, 0x60, 0x20, 0x20, 0x70] ++
  ([0xF0, 0x10, 0xF0, 0x80, 0xF0] ++ ([0xF0, 0x10, 0xF0, 0x10, 0xF0] ++
  ([0x90, 0x90, 0xF0, 0x10, 0x10] ++ ([0xF0, 0x80, 0xF0, 0x10, 0xF0] ++
  ([0xF0, 0x80, 0xF0, 0x90, 0xF0] ++ [0xF0, 0x10, 0x20, 0x40, 0x40]))))))

/-- The glyphs of the digits 8 to F. PRESUMED, as `fontLow`. -/
def fontHigh : List Byte :=
  [0xF0, 0x90, 0xF0, 0x90, 0xF0] ++ ([0xF0, 0x90, 0xF0, 0x10, 0xF0] ++
  ([0xF0, 0x90, 0xF0, 0x90, 0x90] ++ ([0xE0, 0x90, 0xE0, 0x90, 0xE0] ++
  ([0xF0, 0x80, 0x80, 0x80, 0xF0] ++ ([0xE0, 0x90, 0x90, 0x90, 0xE0] ++
  ([0xF0, 0x80, 0xF0, 0x80, 0xF0] ++ [0xF0, 0x80, 0xF0, 0x80, 0x80]))))))

/-- `FONT`, 80 bytes: glyph `d` is the five bytes from `5*d` (R32). -/
def font : List Byte := fontLow ++ fontHigh

end Sys2Proof.Config
end

