-- ==== Sys2Proof/Machine/State.lean ====
section
/-! DEFINITION. The state of the Machine as plain data (spec/10_state.md), the state after reset (R35), and the
reasons a transaction can stop. -/

namespace Sys2Proof.Machine

/-- The run state (R30). -/
inductive RunState where
  | running
  | finished
  deriving DecidableEq, Repr

/-- The error conditions of a step (spec/60_exceptions.md R170). Each is a NEXT state of the model: R171 to R174 give
its whole effect. -/
inductive StepError where
  /-- The fetched word matches no instruction; the run goes on (R171). -/
  | decodeError (bits : Word)
  /-- A `2NNN` with 16 pending calls; the Machine is finished (R172). -/
  | stackOverflow
  /-- A `00EE` with no pending call; the Machine is finished (R173). -/
  | stackUnderflow
  /-- `pc > 4094` when a step begins; the Machine is finished (R174). -/
  | outOfBoundsPC
  deriving DecidableEq, Repr

/-- The second output of a step (spec/40_step_cycle.md R95). -/
inductive Report where
  | noReport
  | error (e : StepError)
  deriving DecidableEq, Repr

/-- The output of `tick_timers` (spec/60_exceptions.md R183). -/
inductive TimerSignal where
  | playSound
  | none
  deriving DecidableEq, Repr

/-- The reasons the Machine stops with a fault: there are none. The spec's error conditions are states the run
reaches (`StepError`), and it has no address, alignment, arithmetic, privilege or operand fault
(spec/60_exceptions.md R170; notes/assumptions/32.md, safe: nothing is left out by it). -/
inductive Fault where
  deriving DecidableEq, Repr

/-- The reasons a transaction is refused. Safe: the state does not change. -/
inductive Refusal where
  /-- An instruction without a meaning, rejected by `exec`'s arm. No arm does: all 34 have their meaning. Safe. -/
  | notModelled (mnemonic : String)
  /-- Raised by the host's `load_program` with more than 3584 bytes (spec/60_exceptions.md R175 (1)). No instruction
  raises it. Safe: the spec refuses it too. -/
  | oversizedRom (length : Nat)
  /-- Raised by the host's `set_key` with an index above 15 (spec/60_exceptions.md R175 (2)). No instruction raises it.
  Safe: the spec refuses it too. -/
  | keyIndexOutOfRange (index : Nat)
  deriving DecidableEq, Repr

/-- The state of the Machine: every field of spec/10_state.md, and two fields of the model's own (`errors`, `draws`). -/
structure State where
  /-- `MEM`: the bytes that differ from their reset content, by rising address (R31; see `Memory` in Machine/Ops.lean). -/
  mem : List Host.Cell
  /-- `V[0]`..`V[15]` (R20). -/
  v : Vector Byte 16
  /-- `I` (R22). -/
  i : Word
  /-- `pc` (R23). -/
  pc : Word
  /-- `STACK[0]`..`STACK[15]` (R25). -/
  stack : Vector Word 16
  /-- `sp`, the number of pending return addresses, 0..16 (R25). -/
  sp : Fin 17
  /-- `DT` (R26). -/
  dt : Byte
  /-- `ST` (R27). -/
  st : Byte
  /-- `FB[0]`..`FB[2047]`, index `x + 64*y` (R28). -/
  fb : Vector Bool 2048
  /-- `KEY[0]`..`KEY[15]` (R29). -/
  key : Vector Bool 16
  /-- `run_state` (R30). -/
  runState : RunState
  /-- The MODEL's own: the errors steps have reported to the host since `new()`, newest first. The spec's `Report` is
  an output and not stored (R34 (e)); this list is that output's channel and the sticky mark that
  spec/93_implementation_defined.md U1 asks for (notes/assumptions/2.md). No instruction reads it. -/
  errors : List StepError
  /-- The MODEL's own: how many bytes CXNN has drawn, the argument of the free value `Config.draw`
  (notes/assumptions/13.md). -/
  draws : Nat
  deriving DecidableEq, Repr

/-- The state after `new()` (R35; spec/70_reset_and_hazards.md R200). Memory lists nothing: an unlisted address reads as
its reset content. `draws` is the model's own field; its 0 is a DESIGN CHOICE (notes/assumptions/13.md). -/
def State.reset : State where
  mem := []
  v := Vector.replicate 16 0
  i := 0x0000
  pc := 0x0200
  stack := Vector.replicate 16 0
  sp := 0
  dt := 0
  st := 0
  fb := Vector.replicate 2048 false
  key := Vector.replicate 16 false
  runState := .running
  errors := []
  draws := 0

end Sys2Proof.Machine
end

