-- ==== Sys2Proof/Machine/Ops.lean ====
section
/-! DEFINITION. The named operations over memory, registers, the stack, the display and the run state, and the error
path, each once. -/

namespace Sys2Proof.Machine

/-! Main memory (spec/20_memory.md R51, R54, R55) -/

/-- Main memory: the bytes that differ from their reset content, by strictly rising address. -/
abbrev Memory := List Host.Cell

/-- What an unlisted address reads as: its content after `new()`, a font byte in 0x050..0x09F and 0 elsewhere
(spec/10_state.md R31, R35). -/
def resetByte (a : Nat) : Byte :=
  if Config.fontBase ≤ a ∧ a < Config.fontBase + Config.fontSize then Config.font.getD (a - Config.fontBase) 0 else 0

/-- `MemRead` at a plain address. -/
def Memory.readAt : Memory → Nat → Byte
  | [], a => resetByte a
  | (c, b) :: m, a => if a = c then b else Memory.readAt m a

/-- A cell put before `m`, unless it holds what the address reads as unlisted. -/
def Memory.consCell (a : Nat) (b : Byte) (m : Memory) : Memory :=
  if b = resetByte a then m else (a, b) :: m

/-- `MemWrite` at a plain address, keeping the canonical form. -/
def Memory.writeAt : Memory → Nat → Byte → Memory
  | [], a, b => Memory.consCell a b []
  | (c, d) :: m, a, b =>
    if a < c then Memory.consCell a b ((c, d) :: m)
    else if a = c then Memory.consCell a b m
    else (c, d) :: Memory.writeAt m a b

/-- Every address of `m` is above `lo`, in 0..4095, the addresses rise strictly, and no entry holds its reset content. -/
def Memory.wfAbove : Option Nat → Memory → Bool
  | _, [] => true
  | lo, (c, b) :: m =>
    (match lo with
      | none => true
      | some l => decide (l < c)) &&
    decide (c < 4096) && decide (b ≠ resetByte c) && Memory.wfAbove (some c) m

/-- The canonical form of memory. -/
def Memory.wf (m : Memory) : Bool := Memory.wfAbove none m

/-- `MemRead(addr, 1)` (spec/00_scope.md R8). -/
def State.readMem (s : State) (a : Addr) : Byte := Memory.readAt s.mem a.toNat

/-- `MemWrite(addr, 1, v)` (spec/00_scope.md R8). Every byte is ordinary RAM (spec/20_memory.md R55, decision D14). -/
def State.writeMem (s : State) (a : Addr) (b : Byte) : State :=
  { s with mem := Memory.writeAt s.mem a.toNat b }

/-- `ea(a) = a & 0xFFF`, the effective data address of a 16-bit value (spec/20_memory.md R51, decision D8;
notes/assumptions/8.md). -/
def ea (a : Word) : Addr := a.setWidth 12

/-- The bytes stored one after the other from the 16-bit pointer `a` on, each address masked by itself (R57). -/
def State.writeBytes (s : State) (a : Word) : List Byte → State
  | [] => s
  | b :: bs => (s.writeMem (ea a) b).writeBytes (a + 1) bs

/-- The `n` bytes read one after the other from the 16-bit pointer `a` on, each address masked by itself (R57). -/
def State.readBytes (s : State) (a : Word) : Nat → List Byte
  | 0 => []
  | n + 1 => s.readMem (ea a) :: s.readBytes (a + 1) n

/-! Registers (spec/10_state.md R20 to R27) -/

/-- V0, the implicit addend of `BNNN`. -/
def regV0 : Reg := 0

/-- VF, the register that doubles as the flag (R21). -/
def regVF : Reg := 15

/-- All sixteen general registers, in ascending order. -/
def allRegs : List Reg := [0, 1, 2, 3, 4, 5, 6, 7, 8, 9, 10, 11, 12, 13, 14, 15]

/-- `V[x]`. -/
def State.reg (s : State) (x : Reg) : Byte := s.v[x.val]

/-- `V[x] <- b`. -/
def State.setReg (s : State) (x : Reg) (b : Byte) : State := { s with v := s.v.set x.val b }

/-- The registers of `rs` loaded with the bytes of `bs`, in order. -/
def State.setRegs (s : State) : List Reg → List Byte → State
  | r :: rs, b :: bs => (s.setReg r b).setRegs rs bs
  | _, _ => s

/-- `I <- w`. -/
def State.setI (s : State) (w : Word) : State := { s with i := w }

/-- `pc <- target`: no mask, no alignment check (R23, decision D9). -/
def State.setPc (s : State) (target : Word) : State := { s with pc := target }

/-- `pc <- pc + 2` when the condition holds: the conditional skip (R24). -/
def State.skipIf (s : State) (condition : Bool) : State :=
  if condition then s.setPc (s.pc + 2) else s

/-- `DT <- b`. -/
def State.setDt (s : State) (b : Byte) : State := { s with dt := b }

/-- `ST <- b`. -/
def State.setSt (s : State) (b : Byte) : State := { s with st := b }

/-! The call stack (R25) -/

/-- A push, allowed only when `sp < 16`. -/
def State.push (s : State) (value : Word) : Option State :=
  if h : s.sp.val < 16 then
    some { s with stack := s.stack.set s.sp.val value h, sp := ⟨s.sp.val + 1, by omega⟩ }
  else none

/-- A pop, allowed only when `sp > 0`: the value and the state after. The vacated slot keeps its value. -/
def State.pop (s : State) : Option (Word × State) :=
  if h : 0 < s.sp.val then
    some (s.stack[s.sp.val - 1]'(by have := s.sp.isLt; omega),
      { s with sp := ⟨s.sp.val - 1, by have := s.sp.isLt; omega⟩ })
  else none

/-! The display controller (spec/44_display.md R154) -/

/-- `FB`. -/
abbrev FrameBuffer := Vector Bool 2048

/-- The index of the pixel in column `x` and row `y`, both wrapped (spec/10_state.md R28). -/
def pixelIndex (x y : Nat) : Fin 2048 := ⟨x % 64 + 64 * (y % 32), by omega⟩

/-- `clear()`: fill the framebuffer with false. -/
def clearedFrameBuffer : FrameBuffer := Vector.replicate 2048 false

/-- A blit in progress: the framebuffer and whether a collision has occurred. -/
structure Blit where
  fb : FrameBuffer
  collided : Bool
  deriving DecidableEq, Repr

/-- One sprite bit at one pixel: a 1 bit inverts the pixel and collides if it was on (R151, R153). -/
def Blit.pixel (acc : Blit) (k : Fin 2048) (spriteBit : Bool) : Blit where
  fb := acc.fb.set k.val (acc.fb[k.val] ^^ spriteBit)
  collided := acc.collided || (spriteBit && acc.fb[k.val])

/-- The columns of a sprite row, left to right. -/
def spriteColumns : List Nat := [0, 1, 2, 3, 4, 5, 6, 7]

/-- One sprite row at `(x, y)`: eight pixels, the most significant bit leftmost, each wrapped by itself (R151, R152). -/
def Blit.row (acc : Blit) (x y : Nat) (b : Byte) : Blit :=
  spriteColumns.foldl (fun acc col => acc.pixel (pixelIndex (x + col) y) (b.getLsbD (7 - col))) acc

/-- The rows of a sprite from `(x, y)` downwards. -/
def Blit.rows (acc : Blit) (x y : Nat) : List Byte → Blit
  | [] => acc
  | b :: bs => (acc.row x y b).rows x (y + 1) bs

/-- `blit_sprite(x, y, rows) -> collided` (R154). -/
def blitSprite (fb : FrameBuffer) (x y : Nat) (rows : List Byte) : Blit := Blit.rows ⟨fb, false⟩ x y rows

/-- `FB <- fb`. -/
def State.setFb (s : State) (fb : FrameBuffer) : State := { s with fb := fb }

/-! The keypad (spec/10_state.md R29) -/

/-- `KEY[k]`. -/
def State.keyDown (s : State) (k : Fin 16) : Bool := s.key[k.val]

/-- `KEY[k] <- pressed`. -/
def State.setKeyLatch (s : State) (k : Fin 16) (pressed : Bool) : State :=
  { s with key := s.key.set k.val pressed }

/-- The lowest-indexed pressed key, if any key is pressed (spec/45_keypad_timer.md R162). -/
def State.lowestKey (s : State) : Option (Fin 16) := allRegs.find? fun k => s.keyDown k

/-! The random source of CXNN -/

/-- `draw8()`: the next free byte and the state that has consumed it (spec/42_load_alu.md R131). -/
def State.draw8 (s : State) : Byte × State := (Config.draw s.draws, { s with draws := s.draws + 1 })

/-! Fetch and the error path (spec/40_step_cycle.md R92, R93; spec/60_exceptions.md R176) -/

/-- The bound check fails: `pc > 4094` when a step begins (R92). -/
def State.pcOutOfBounds (s : State) : Bool := decide (Config.pcLimit < s.pc.toNat)

/-- The word at `pc`: the bytes at `pc` and `pc + 1`, the first of them the high one (R93). -/
def State.fetchWord (s : State) : Word :=
  wordOfBytes (Memory.readAt s.mem s.pc.toNat) (Memory.readAt s.mem (s.pc.toNat + 1))

/-- The fetch's `pc <- pc + 2` (R93). -/
def State.advance (s : State) : State := s.setPc (s.pc + 2)

/-- The step reports `e` to the host; nothing else changes (R94, R95, R171). -/
def State.reportError (s : State) (e : StepError) : State := { s with errors := e :: s.errors }

/-- THE error path, the hardware's only exception entry: `run_state <- Finished` and the error reported. There is no
handler, no saved register and no return but `new()` (R176, R178). -/
def State.takeError (s : State) (e : StepError) : State :=
  { s with runState := .finished, errors := e :: s.errors }

/-- What a step does with an illegal word: the fetch's advance stands, the word is reported, and nothing else changes
(R171, decision D4; notes/assumptions/4.md). -/
def State.takeDecodeError (s : State) : State := s.advance.reportError (.decodeError s.fetchWord)

/-- What a step does whose `pc` is out of bounds: the error path, with no fetch (R174). -/
def State.takeOutOfBounds (s : State) : State := s.takeError .outOfBoundsPC

end Sys2Proof.Machine
end

