-- ==== Sys2Proof/Machine/Operands.lean ====
section
/-! DEFINITION. The operand forms beside plain registers and immediates (spec/30_encoding.md R73). The one addressing
mode, `ea(I + k)` (spec/43_index_memory.md R146), is `State.readBytes` and `State.writeBytes` of Machine/Ops.lean from
the pointer `I`. -/

namespace Sys2Proof.Machine

/-- `zext_16(NNN)`. -/
def zextAddr (nnn : Addr) : Word := nnn.setWidth 16

/-- `zext_16(V[x])`. -/
def zextByte (b : Byte) : Word := b.setWidth 16

/-- The registers `V[0]`..`V[x]` inclusive, in ascending order (R144, R145). -/
def regsUpTo (x : Reg) : List Reg := allRegs.take (x.val + 1)

/-- The address of the glyph of the low nibble of a byte: `0x050 + 5 * (b & 0xF)` (R142). -/
def glyphAddress (b : Byte) : Word := BitVec.ofNat 16 (Config.fontBase + 5 * (b.toNat % 16))

/-- The decimal digits of a byte, hundreds first, each as a byte value (R143). -/
def bcdDigits (b : Byte) : List Byte :=
  [BitVec.ofNat 8 (b.toNat / 100), BitVec.ofNat 8 (b.toNat / 10 % 10), BitVec.ofNat 8 (b.toNat % 10)]

/-- The key a byte selects: its low nibble (spec/45_keypad_timer.md R160, decision D10; notes/assumptions/10.md). -/
def keyIndex (b : Byte) : Fin 16 := ⟨b.toNat % 16, by omega⟩

/-- A key index as a byte. -/
def keyByte (k : Fin 16) : Byte := BitVec.ofNat 8 k.val

/-- The `n` sprite rows, the bytes at `ea(I)`, `ea(I + 1)`, ... (spec/44_display.md R151). -/
def State.spriteRows (s : State) (n : Nibble) : List Byte := s.readBytes s.i n.toNat

end Sys2Proof.Machine
end

