-- ==== Sys2Proof/Machine/Flags.lean ====
section
/-! DEFINITION. The flag computations and the one way a flag is written (spec/10_state.md R21, spec/42_load_alu.md
R126 to R133). -/

namespace Sys2Proof.Machine

/-- A flag as the byte 0 or 1 (R21). -/
def flagByte (b : Bool) : Byte := if b then 1 else 0

/-- `8XY4`: the unsigned sum exceeds 255 (R126). -/
def carryOut (a b : Byte) : Bool := decide (255 < a.toNat + b.toNat)

/-- `8XY5`, `8XY7`: `a - b` needs no borrow (R127, R129). -/
def noBorrow (a b : Byte) : Bool := decide (b.toNat ≤ a.toNat)

/-- `8XY6`: the bit shifted out to the right, bit 0 (R128). -/
def shiftedOutRight (a : Byte) : Bool := a.getLsbD 0

/-- `8XYE`: the bit shifted out to the left, bit 7 (R130). -/
def shiftedOutLeft (a : Byte) : Bool := a.getLsbD 7

/-- `V[0xF] <- 1 if flag else 0`. -/
def State.setFlag (s : State) (flag : Bool) : State := s.setReg regVF (flagByte flag)

/-- The data result into `V[x]`, and then the flag into VF, last and unconditionally, so that with `x = 0xF` the flag
stands (R133). -/
def State.setResultThenFlag (s : State) (x : Reg) (result : Byte) (flag : Bool) : State :=
  (s.setReg x result).setFlag flag

end Sys2Proof.Machine
end

