-- ==== Sys2Proof/Machine/ControlFlow.lean ====
section
/-! DEFINITION. Control transfer instructions (spec/41_control_flow.md). In every meaning `pc` already holds `p + 2`,
where `p` is the address the instruction was fetched from (spec/40_step_cycle.md R93). -/

namespace Sys2Proof.Machine

/-- `00EE`: pop a return address into `pc`; with no pending call, the error path and nothing else (R100;
spec/60_exceptions.md R173). -/
def execRet (s : State) : Host.Outcome State Fault Refusal :=
  match s.pop with
  | none => .next (s.takeError .stackUnderflow)
  | some (target, popped) => .next (popped.setPc target)

/-- `1NNN`: `pc <- NNN` (R101). -/
def execJpNnn (nnn : Addr) (s : State) : Host.Outcome State Fault Refusal :=
  .next (s.setPc (zextAddr nnn))

/-- `2NNN`: push `pc` and jump; with 16 pending calls, the error path and nothing else (R103; spec/60_exceptions.md
R172). -/
def execCallNnn (nnn : Addr) (s : State) : Host.Outcome State Fault Refusal :=
  match s.push s.pc with
  | none => .next (s.takeError .stackOverflow)
  | some pushed => .next (pushed.setPc (zextAddr nnn))

/-- `3XNN`: skip if `V[X] = NN` (R104; the condition is PRESUMED, notes/assumptions/25.md). -/
def execSeVxNn (x : Reg) (nn : Byte) (s : State) : Host.Outcome State Fault Refusal :=
  .next (s.skipIf (s.reg x == nn))

/-- `4XNN`: skip if `V[X] ≠ NN` (R105; the condition is PRESUMED, notes/assumptions/25.md). -/
def execSneVxNn (x : Reg) (nn : Byte) (s : State) : Host.Outcome State Fault Refusal :=
  .next (s.skipIf (s.reg x != nn))

/-- `5XY0`: skip if `V[X] = V[Y]` (R106; the condition is PRESUMED, notes/assumptions/25.md). -/
def execSeVxVy (x y : Reg) (s : State) : Host.Outcome State Fault Refusal :=
  .next (s.skipIf (s.reg x == s.reg y))

/-- `9XY0`: skip if `V[X] ≠ V[Y]` (R107; the condition is PRESUMED, notes/assumptions/25.md). -/
def execSneVxVy (x y : Reg) (s : State) : Host.Outcome State Fault Refusal :=
  .next (s.skipIf (s.reg x != s.reg y))

/-- `BNNN`: `pc <- NNN + V[0]`, not reduced to 12 bits (R102). -/
def execJpV0Nnn (nnn : Addr) (s : State) : Host.Outcome State Fault Refusal :=
  .next (s.setPc (zextAddr nnn + zextByte (s.reg regV0)))

end Sys2Proof.Machine
end

