-- ==== Sys2Proof/Machine/Display.lean ====
section
/-! DEFINITION. Display controller instructions (spec/44_display.md). -/

namespace Sys2Proof.Machine

/-- `00E0`: every display cell false (R150). -/
def execCls (s : State) : Host.Outcome State Fault Refusal :=
  .next (s.setFb clearedFrameBuffer)

/-- The blit that `DXYN` performs: the sprite rows at `I` at `(V[X], V[Y])` (R151). -/
def State.spriteBlit (s : State) (x y : Reg) (n : Nibble) : Blit :=
  blitSprite s.fb (s.reg x).toNat (s.reg y).toNat (s.spriteRows n)

/-- `DXYN`: draw by XOR, then VF 1 iff any collision, written once at the end (R151). -/
def execDrwVxVyN (x y : Reg) (n : Nibble) (s : State) : Host.Outcome State Fault Refusal :=
  .next ((s.setFb (s.spriteBlit x y n).fb).setFlag (s.spriteBlit x y n).collided)

end Sys2Proof.Machine
end

