-- ==== Sys2Proof/Machine/IndexMemory.lean ====
section
/-! DEFINITION. Index register and memory instructions (spec/43_index_memory.md). No address can be out of range
(R146 (e)). -/

namespace Sys2Proof.Machine

/-- `ANNN`: `I <- NNN` (R140). -/
def execLdINnn (nnn : Addr) (s : State) : Host.Outcome State Fault Refusal :=
  .next (s.setI (zextAddr nnn))

/-- `FX1E`: `I <- (I + V[X]) mod 65536`, no flag (R141). -/
def execAddIVx (x : Reg) (s : State) : Host.Outcome State Fault Refusal :=
  .next (s.setI (s.i + zextByte (s.reg x)))

/-- `FX29`: `I <- 0x050 + 5 * (V[X] & 0xF)` (R142). -/
def execLdFVx (x : Reg) (s : State) : Host.Outcome State Fault Refusal :=
  .next (s.setI (glyphAddress (s.reg x)))

/-- `FX33`: the three decimal digits of `V[X]` to memory from `I` on (R143). -/
def execLdBVx (x : Reg) (s : State) : Host.Outcome State Fault Refusal :=
  .next (s.writeBytes s.i (bcdDigits (s.reg x)))

/-- `FX55`: `V[0]`..`V[X]` to memory from `I` on; `I` unchanged (R144, decision D11; notes/assumptions/11.md). -/
def execLdMiVx (x : Reg) (s : State) : Host.Outcome State Fault Refusal :=
  .next (s.writeBytes s.i ((regsUpTo x).map s.reg))

/-- `FX65`: `V[0]`..`V[X]` from memory from `I` on; `I` unchanged (R145, decision D11; notes/assumptions/11.md). -/
def execLdVxMi (x : Reg) (s : State) : Host.Outcome State Fault Refusal :=
  .next (s.setRegs (regsUpTo x) (s.readBytes s.i (x.val + 1)))

end Sys2Proof.Machine
end

