-- ==== Sys2Proof/Machine/KeypadTimer.lean ====
section
/-! DEFINITION. Keypad and timer instructions (spec/45_keypad_timer.md). -/

namespace Sys2Proof.Machine

/-- `EX9E`: skip if the key of the low nibble of `V[X]` is pressed (R160; PRESUMED, notes/assumptions/26.md; the nibble,
notes/assumptions/10.md). -/
def execSkpVx (x : Reg) (s : State) : Host.Outcome State Fault Refusal :=
  .next (s.skipIf (s.keyDown (keyIndex (s.reg x))))

/-- `EXA1`: skip if that key is not pressed (R161; PRESUMED, notes/assumptions/26.md). -/
def execSknpVx (x : Reg) (s : State) : Host.Outcome State Fault Refusal :=
  .next (s.skipIf (!s.keyDown (keyIndex (s.reg x))))

/-- `FX07`: `V[X] <- DT` (R163; PRESUMED, notes/assumptions/27.md). -/
def execLdVxDt (x : Reg) (s : State) : Host.Outcome State Fault Refusal :=
  .next (s.setReg x s.dt)

/-- `FX0A`: the lowest pressed key into `V[X]`; with no key pressed, `pc` back to this instruction, which the next step
fetches again (R162). -/
def execLdVxK (x : Reg) (s : State) : Host.Outcome State Fault Refusal :=
  match s.lowestKey with
  | some k => .next (s.setReg x (keyByte k))
  | none => .next (s.setPc (s.pc - 2))

/-- `FX15`: `DT <- V[X]` (R164; PRESUMED, notes/assumptions/27.md). -/
def execLdDtVx (x : Reg) (s : State) : Host.Outcome State Fault Refusal :=
  .next (s.setDt (s.reg x))

/-- `FX18`: `ST <- V[X]` (R165; PRESUMED, notes/assumptions/27.md). -/
def execLdStVx (x : Reg) (s : State) : Host.Outcome State Fault Refusal :=
  .next (s.setSt (s.reg x))

end Sys2Proof.Machine
end

