-- ==== Sys2Proof/Machine/LoadAlu.lean ====
section
/-! DEFINITION. Register load, ALU and random instructions (spec/42_load_alu.md). Sources are read from the state before
any write; the data result is written first and the flag last (R133). That the `8XY_` group writes `V[X]` is the spec's
reading (notes/assumptions/28.md). -/

namespace Sys2Proof.Machine

/-- `6XNN`: `V[X] <- NN` (R120). -/
def execLdVxNn (x : Reg) (nn : Byte) (s : State) : Host.Outcome State Fault Refusal :=
  .next (s.setReg x nn)

/-- `7XNN`: `V[X] <- (V[X] + NN) mod 256`, no flag (R121). -/
def execAddVxNn (x : Reg) (nn : Byte) (s : State) : Host.Outcome State Fault Refusal :=
  .next (s.setReg x (s.reg x + nn))

/-- `8XY0`: `V[X] <- V[Y]`, no flag (R122). -/
def execLdVxVy (x y : Reg) (s : State) : Host.Outcome State Fault Refusal :=
  .next (s.setReg x (s.reg y))

/-- `8XY1`: `V[X] <- V[X] | V[Y]`, no flag (R123). -/
def execOrVxVy (x y : Reg) (s : State) : Host.Outcome State Fault Refusal :=
  .next (s.setReg x (s.reg x ||| s.reg y))

/-- `8XY2`: `V[X] <- V[X] & V[Y]`, no flag (R124). -/
def execAndVxVy (x y : Reg) (s : State) : Host.Outcome State Fault Refusal :=
  .next (s.setReg x (s.reg x &&& s.reg y))

/-- `8XY3`: `V[X] <- V[X] ^ V[Y]`, no flag (R125). -/
def execXorVxVy (x y : Reg) (s : State) : Host.Outcome State Fault Refusal :=
  .next (s.setReg x (s.reg x ^^^ s.reg y))

/-- `8XY4`: add, VF the carry out (R126). -/
def execAddVxVy (x y : Reg) (s : State) : Host.Outcome State Fault Refusal :=
  .next (s.setResultThenFlag x (s.reg x + s.reg y) (carryOut (s.reg x) (s.reg y)))

/-- `8XY5`: `V[X] - V[Y]`, VF 1 iff no borrow (R127). -/
def execSubVxVy (x y : Reg) (s : State) : Host.Outcome State Fault Refusal :=
  .next (s.setResultThenFlag x (s.reg x - s.reg y) (noBorrow (s.reg x) (s.reg y)))

/-- `8XY6`: `V[X]` shifted right by one in place, VF the bit shifted out; `Y` is ignored (R128). -/
def execShrVx (x _y : Reg) (s : State) : Host.Outcome State Fault Refusal :=
  .next (s.setResultThenFlag x (s.reg x >>> 1) (shiftedOutRight (s.reg x)))

/-- `8XY7`: `V[Y] - V[X]` into `V[X]`, VF 1 iff no borrow (R129; notes/assumptions/34.md). -/
def execSubnVxVy (x y : Reg) (s : State) : Host.Outcome State Fault Refusal :=
  .next (s.setResultThenFlag x (s.reg y - s.reg x) (noBorrow (s.reg y) (s.reg x)))

/-- `8XYE`: `V[X]` shifted left by one in place, VF the bit shifted out; `Y` is ignored (R130). -/
def execShlVx (x _y : Reg) (s : State) : Host.Outcome State Fault Refusal :=
  .next (s.setResultThenFlag x (s.reg x <<< 1) (shiftedOutLeft (s.reg x)))

/-- `CXNN`: `V[X] <- r & NN` with `r` a fresh free byte (R131; notes/assumptions/13.md). -/
def execRndVxNn (x : Reg) (nn : Byte) (s : State) : Host.Outcome State Fault Refusal :=
  .next (s.draw8.2.setReg x (s.draw8.1 &&& nn))

end Sys2Proof.Machine
end

