-- ==== Sys2Proof/Machine/Step.lean ====
section
/-! DEFINITION. The `step` transaction (spec/40_step_cycle.md R90) and the placing of one instruction where it fetches. -/

namespace Sys2Proof.Machine

/-- One fetch-decode-execute cycle, the four stages of R90 in order: a finished Machine does nothing (R91); the bound
check (R92); the fetch, which advances `pc` (R93); decode and dispatch, where an illegal word is reported and the run
goes on (R94). The `Report` it returns is `stepReport` (Machine/Transactions.lean). -/
def step (s : State) : Host.Outcome State Fault Refusal :=
  match s.runState with
  | .finished => .next s
  | .running =>
    if s.pcOutOfBounds then .next s.takeOutOfBounds
    else
      match decodeWord s.fetchWord with
      | .error _ => .next s.takeDecodeError
      | .ok i => exec i s.advance

/-- `s` with the instruction of the opcode table's word `w` stored where `step` fetches next: its high byte at `pc`, its
low byte at `pc + 1` (spec/20_memory.md R52). It stands for the host's `load_program` (notes/assumptions/29.md). -/
def State.withFetchWord (s : State) (nbits w : Nat) : State :=
  s.writeBytes s.pc (wordBytes (wordOfTable nbits w))

end Sys2Proof.Machine
end

