-- ==== Sys2Proof/Machine/Transactions.lean ====
section
/-! DEFINITION. The six transactions of the external interface (spec/00_scope.md R6): `step` and the five of the host
and the timer clock, and runs of them in any order (spec/60_exceptions.md R187). -/

namespace Sys2Proof.Machine

/-- The `Report` of a step that took `s` to `t`: the error it reported, if any (spec/40_step_cycle.md R95). -/
def stepReport (s t : State) : Report :=
  match t.errors with
  | [] => .noReport
  | e :: older => if older.length = s.errors.length then .error e else .noReport

/-- The spec's number of a report (spec/60_exceptions.md R170, decision D2). -/
def Report.code : Report → Nat
  | .noReport => 0
  | .error (.decodeError _) => 1
  | .error .stackOverflow => 2
  | .error .stackUnderflow => 3
  | .error .outOfBoundsPC => 4

/-- `new()`: the state of reset (spec/70_reset_and_hazards.md R200). Only the model's draw counter goes on, so that a
second Machine does not repeat the first one's random bytes (notes/assumptions/13.md). -/
def newMachine (s : State) : State := { State.reset with draws := s.draws }

/-- `load_program(bytes)`: refused above 3584 bytes, else copied to 0x200 on, and nothing else changes
(spec/70_reset_and_hazards.md R201; spec/60_exceptions.md R175). -/
def loadProgram (bytes : List Byte) (s : State) : Host.Outcome State Fault Refusal :=
  if Config.maxRom < bytes.length then .refused (.oversizedRom bytes.length)
  else .next (s.writeBytes (BitVec.ofNat 16 Config.progBase) bytes)

/-- A timer one tick later: down by one, floor at zero (spec/60_exceptions.md R182). -/
def tickedTimer (t : Byte) : Byte := if t = 0 then 0 else t - 1

/-- `tick_timers()`: both timers count down, whatever the run state (spec/60_exceptions.md R182). -/
def tickTimers (s : State) : State := { s with dt := tickedTimer s.dt, st := tickedTimer s.st }

/-- What `tick_timers()` returns on `s`: `PlaySound` iff `ST = 1` before the tick (spec/60_exceptions.md R183). -/
def timerSignal (s : State) : TimerSignal := if s.st = 1 then .playSound else .none

/-- `set_key(index, pressed)`: refused above 15, else that one latch is set, whatever the run state
(spec/60_exceptions.md R185, R175). -/
def setKey (index : Nat) (pressed : Bool) (s : State) : Host.Outcome State Fault Refusal :=
  if h : index < 16 then .next (s.setKeyLatch ⟨index, h⟩ pressed)
  else .refused (.keyIndexOutOfRange index)

/-- `framebuffer()`: the 2048 cells, row-major (spec/60_exceptions.md R186). -/
def framebuffer (s : State) : List Bool := s.fb.toList

/-- A transaction with its inputs. -/
inductive Transaction where
  | new
  | loadProgram (bytes : List Byte)
  | step
  | tickTimers
  | setKey (index : Nat) (pressed : Bool)
  | framebuffer
  deriving DecidableEq, Repr

/-- What a transaction returns to its caller. -/
inductive Output where
  | nothing
  | stepped (programState : RunState) (report : Report)
  | ticked (signal : TimerSignal)
  | pixels (cells : List Bool)
  deriving DecidableEq, Repr

/-- The state after a transaction and what it returns. -/
structure Response where
  state : State
  output : Output
  deriving DecidableEq, Repr

/-- A transaction that returns nothing, as a response. -/
def quietly : Host.Outcome State Fault Refusal → Host.Outcome Response Fault Refusal
  | .next t => .next ⟨t, .nothing⟩
  | .fault r => .fault r
  | .refused r => .refused r

/-- A step's outcome on `s` as a response: the run state after it and its report (spec/40_step_cycle.md R95). -/
def stepResponse (s : State) : Host.Outcome State Fault Refusal → Host.Outcome Response Fault Refusal
  | .next t => .next ⟨t, .stepped t.runState (stepReport s t)⟩
  | .fault r => .fault r
  | .refused r => .refused r

/-- Any transaction of the interface. -/
def transact (a : Transaction) (s : State) : Host.Outcome Response Fault Refusal :=
  match a with
  | .new => .next ⟨newMachine s, .nothing⟩
  | .loadProgram bytes => quietly (Machine.loadProgram bytes s)
  | .step => stepResponse s (Machine.step s)
  | .tickTimers => .next ⟨Machine.tickTimers s, .ticked (timerSignal s)⟩
  | .setKey index pressed => quietly (Machine.setKey index pressed s)
  | .framebuffer => .next ⟨s, .pixels (Machine.framebuffer s)⟩

/-- A word of transactions; a refused one leaves the state as it is and the run goes on (spec/60_exceptions.md R175,
R187; notes/assumptions/36.md). -/
def runTransactions : List Transaction → State → Host.Outcome State Fault Refusal
  | [], s => .next s
  | a :: as, s =>
    match transact a s with
    | .next r => runTransactions as r.state
    | .fault r => .fault r
    | .refused _ => runTransactions as s

end Sys2Proof.Machine
end

