-- ==== Sys2Proof/Safety.lean ====
section
/-! DEFINITION. What claims about runs are stated in: reachable states, the invariant of spec/10_state.md R36, and the
launch state of spec/70_reset_and_hazards.md R202. -/

namespace Sys2Proof

open Machine

/-- The states a Machine can be in: after `new()`, and after any transaction on such a state. -/
inductive Reachable : State → Prop where
  | reset : Reachable State.reset
  | transact (s : State) (a : Transaction) (r : Response) :
      Reachable s → Machine.transact a s = .next r → Reachable r.state

/-- The pending return addresses are in 2..4096 (R36 (b)). -/
def StackInRange (s : State) : Prop :=
  ∀ k : Fin 16, k.val < s.sp.val → 2 ≤ s.stack[k.val].toNat ∧ s.stack[k.val].toNat ≤ 4096

/-- The invariant of every reachable state: memory in its canonical form with all addresses in 0..4095 (R36 (d)),
pending return addresses in 2..4096 (R36 (b)), `pc ≤ 0x10FE` (R36 (c)). `sp ≤ 16` (R36 (a)) is in `sp`'s type. -/
structure Inv (s : State) : Prop where
  memory : Memory.wf s.mem = true
  stack : StackInRange s
  pc : s.pc.toNat ≤ 0x10FE

/-- The bytes that an access of `n` bytes through the pointer `a` touches: `ea(a)`, `ea(a + 1)`, ... (spec/20_memory.md
R57). -/
def touched (a : Word) (n : Nat) : List Addr := (List.range n).map fun k => ea (a + BitVec.ofNat 16 k)

/-- What an instruction may change: the registers and bytes listed, and each part whose flag is set. -/
structure Writes where
  regs : List Reg := []
  stored : List Addr := []
  index : Bool := false
  pc : Bool := false
  /-- `STACK` and `sp`. -/
  stack : Bool := false
  delay : Bool := false
  sound : Bool := false
  display : Bool := false
  draws : Bool := false
  /-- `run_state` and the reported errors. -/
  run : Bool := false
  deriving DecidableEq, Repr

/-- `t` is `s` but for what `w` lists: every other register, byte of memory and part of the state is unchanged. The key
latches never change: no instruction writes them (spec/10_state.md R29). -/
structure Frame (w : Writes) (s t : State) : Prop where
  regs : ∀ r, r ∉ w.regs → t.reg r = s.reg r
  memory : ∀ a, a ∉ w.stored → t.readMem a = s.readMem a
  index : w.index = false → t.i = s.i
  pc : w.pc = false → t.pc = s.pc
  stack : w.stack = false → t.stack = s.stack ∧ t.sp = s.sp
  delay : w.delay = false → t.dt = s.dt
  sound : w.sound = false → t.st = s.st
  display : w.display = false → t.fb = s.fb
  draws : w.draws = false → t.draws = s.draws
  run : w.run = false → t.runState = s.runState ∧ t.errors = s.errors
  keys : t.key = s.key

/-- The word at `pc`, big-endian (spec/30_encoding.md R70). -/
def wordAtPc (s : State) : Word := wordOfBytes (s.readMem (ea s.pc)) (s.readMem (ea (s.pc + 1)))

/-- The next step executes `i`: the Machine runs, `pc` passes the bound check, and the word at `pc` is `i`'s. -/
def Executes (s : State) (i : Instr) : Prop :=
  s.runState = .running ∧ s.pc.toNat ≤ 4094 ∧ decodeWord (wordAtPc s) = .ok i

/-- The next instruction is a `1NNN` to its own address, the customary way to stop a program, since the hardware has no
halt instruction (spec/70_reset_and_hazards.md R203). -/
def Spinning (s : State) : Prop := ∃ nnn, Executes s (.jpNnn nnn) ∧ nnn.toNat = s.pc.toNat

/-- The model's end of run (R203: "A model must define its own end-of-run"): the Machine is finished, or it spins. An
`FX0A` that waits is no end of run, since a key ends the wait (notes/assumptions/37.md). -/
def EndOfRun (s : State) : Prop := s.runState = .finished ∨ Spinning s

/-- The registers that spec/10_state.md R20's table lets each instruction write. -/
def writtenRegs : Instr → List Reg
  | .ldVxNn x _ => [x]
  | .rndVxNn x _ => [x]
  | .ldVxDt x => [x]
  | .ldVxK x => [x]
  | .addVxNn x _ => [x]
  | .ldVxVy x _ => [x]
  | .orVxVy x _ => [x]
  | .andVxVy x _ => [x]
  | .xorVxVy x _ => [x]
  | .addVxVy x _ => [x, regVF]
  | .subVxVy x _ => [x, regVF]
  | .subnVxVy x _ => [x, regVF]
  | .shrVx x _ => [x, regVF]
  | .shlVx x _ => [x, regVF]
  | .drwVxVyN _ _ _ => [regVF]
  | .ldVxMi x => regsUpTo x
  | _ => []

/-- `pc` after each instruction, from the state `s` in which it executes, where `pc` already holds `p + 2`
(spec/10_state.md R24). -/
def pcAfter (s : State) : Instr → Word
  | .jpNnn nnn => nnn.setWidth 16
  | .jpV0Nnn nnn => nnn.setWidth 16 + (s.reg 0).setWidth 16
  | .callNnn nnn => if s.sp.val = 16 then s.pc else nnn.setWidth 16
  | .ret => if h : s.sp.val = 0 then s.pc else s.stack[s.sp.val - 1]'(by have := s.sp.isLt; omega)
  | .seVxNn x nn => if s.reg x = nn then s.pc + 2 else s.pc
  | .sneVxNn x nn => if s.reg x ≠ nn then s.pc + 2 else s.pc
  | .seVxVy x y => if s.reg x = s.reg y then s.pc + 2 else s.pc
  | .sneVxVy x y => if s.reg x ≠ s.reg y then s.pc + 2 else s.pc
  | .skpVx x => if s.keyDown (keyIndex (s.reg x)) = true then s.pc + 2 else s.pc
  | .sknpVx x => if s.keyDown (keyIndex (s.reg x)) = false then s.pc + 2 else s.pc
  | .ldVxK _ => if ∃ k, s.keyDown k = true then s.pc else s.pc - 2
  | _ => s.pc

/-- The sprite that `DXYN` draws from `s` has a 1 bit that meets the pixel in column `px` and row `py`: bit `7 - col` of
the byte at `ea(I + row)`, at `(V[x] + col, V[y] + row)` with each coordinate wrapped (spec/44_display.md R151). -/
def SpriteBitOver (s : State) (x y : Reg) (n : Nibble) (px py : Nat) : Prop :=
  ∃ row < n.toNat, ∃ col < 8, (s.readMem (ea (s.i + BitVec.ofNat 16 row))).getLsbD (7 - col) = true ∧
    ((s.reg x).toNat + col) % 64 = px ∧ ((s.reg y).toNat + row) % 32 = py

/-- `t` is `s` but for stack slots at or above `sp` (spec/10_state.md R25). -/
def SameButStaleSlots (s t : State) : Prop :=
  t = { s with stack := t.stack } ∧ ∀ k : Fin 16, k.val < s.sp.val → t.stack[k.val] = s.stack[k.val]

/-- `t` is `s` but for the four high bits of `I` (spec/90_conflicts.md C10). -/
def SameButHighIndex (s t : State) : Prop := t = { s with i := t.i } ∧ ea t.i = ea s.i

/-- No step has reported an error since `new()`: the premise that spec/93_implementation_defined.md U1 asks of claims
about programs. -/
def NoErrorReported (s : State) : Prop := s.errors = []

/-- The launch state of a program (R202): the state of reset with the image in memory, and nothing reported yet. -/
def Launched (image : List Byte) (s : State) : Prop :=
  image.length ≤ Config.maxRom ∧ Machine.loadProgram image State.reset = .next s ∧ NoErrorReported s

end Sys2Proof
end

