-- ==== Sys2Proof/Certificates/Slice0/Obligations.lean ====
section
/-! DEFINITION. The statements for the provers. In a statement about `exec`, `s` is the state in which the instruction
executes: its `pc` already holds `p + 2`, where `p` is the address it was fetched from (spec/40_step_cycle.md R93). -/

open Sys2Proof Sys2Proof.Machine

/-! Encoding -/

/-- Every instruction, with every operand at every value, is what its own encoding decodes to (spec/30_encoding.md,
sections 2, 3 and 5). -/
def Obligations.EncodedInstructionDecodesToItself : Prop :=
  ∀ (i : Instr) (rest : List Byte), i.wellFormed = true → decode (encode i ++ rest) = .ok (i, rest)

/-- The decoder accepts exactly the words of the opcode map: a word it accepts matches the row of the instruction it
answers and is that instruction's word; a word that matches a row is accepted as that row's instruction; a word that
matches none is refused as illegal (spec/30_encoding.md, sections 5 and 6; that `0NNN` beside `00E0` and `00EE` is
illegal is the spec's decision D7, notes/assumptions/7.md). -/
def Obligations.DecoderFollowsTheOpcodeMap : Prop :=
  ∀ w : Word,
    (∀ i, decodeWord w = .ok i → i.row ∈ opcodeRows ∧ i.row.matchesWord w = true ∧ encodeWord i = w) ∧
    (∀ r ∈ opcodeRows, r.matchesWord w = true → ∃ i, decodeWord w = .ok i ∧ i.row = r) ∧
    (legalWord w = false → decodeWord w = .error (.illegal w))

/-- No word matches two rows of the opcode map (spec/30_encoding.md, section 5, R75's derived sentence). -/
def Obligations.OpcodeRowsAreDisjoint : Prop :=
  ∀ w : Word, ∀ r ∈ opcodeRows, ∀ q ∈ opcodeRows, r.matchesWord w = true → q.matchesWord w = true → r = q

/-- One word of each family, written out from its bit layout, decodes to the instruction it stands for
(spec/30_encoding.md, section 3). -/
def Obligations.WordsOfEachFamilyDecode : Prop :=
  decodeWord 0b0010_0010_0001_0000 = .ok (.callNnn 0x210) ∧
  decodeWord 0b1000_0001_0010_0111 = .ok (.subnVxVy 1 2) ∧
  decodeWord 0b1111_1010_0011_0011 = .ok (.ldBVx 0xA) ∧
  decodeWord 0b1101_1010_1011_0100 = .ok (.drwVxVyN 0xA 0xB 4) ∧
  decodeWord 0b1110_0101_1010_0001 = .ok (.sknpVx 5)

/-! The step -/

/-- When the two bytes at `pc` decode to an instruction, a step of a running Machine whose `pc` passes the bound check
is `exec` of it on the same state with `pc` advanced by 2. The check's place and the fetch at an odd `pc` are the
spec's decisions D3 and D9 (notes/assumptions/3.md and 9.md). -/
def Obligations.StepRunsTheDecodedInstruction : Prop :=
  ∀ (s : State) (i : Instr), s.runState = .running → s.pc.toNat ≤ 4094 →
    decode [s.readMem (ea s.pc), s.readMem (ea (s.pc + 1))] = .ok (i, []) → i.wellFormed = true →
    step s = exec i { s with pc := s.pc + 2 }

/-- A step on a finished Machine changes nothing and returns (Finished, NoReport). That the report is empty is the
spec's decision D2 (notes/assumptions/2.md). -/
def Obligations.FinishedStepChangesNothing : Prop :=
  ∀ s : State, s.runState = .finished → transact .step s = .next ⟨s, .stepped .finished .noReport⟩

/-- A step that begins with `pc` above 4094 finishes the Machine, reports OutOfBoundsPC and changes nothing else. That
the check stands at the start of a step is the spec's decision D3 (notes/assumptions/3.md), that `pc` is not masked is
D9 (9.md). The report, in the model's own list `errors`, is decision D2 (notes/assumptions/2.md). -/
def Obligations.OutOfBoundsPcFinishes : Prop :=
  ∀ s : State, s.runState = .running → 4094 < s.pc.toNat →
    ∃ t, transact .step s = .next ⟨t, .stepped .finished (.error .outOfBoundsPC)⟩ ∧ t.runState = .finished ∧
      t.errors = .outOfBoundsPC :: s.errors ∧ Frame { run := true } s t

/-- A step that fetches an illegal word reports it, advances `pc` by 2, keeps running and changes nothing else. The
advance is the spec's decision D4 (notes/assumptions/4.md); which words of group 0 are illegal is D7 (7.md). That it
runs on at 4093 and 4094 rests on the place of the bound check, D3 (3.md), and on the unmasked `pc`, D9 (9.md). The
report, in the model's own list `errors`, is decision D2 (notes/assumptions/2.md). -/
def Obligations.IllegalWordIsReportedAndSkipped : Prop :=
  ∀ s : State, s.runState = .running → s.pc.toNat ≤ 4094 → legalWord (wordAtPc s) = false →
    ∃ t, transact .step s = .next ⟨t, .stepped .running (.error (.decodeError (wordAtPc s)))⟩ ∧
      t.pc.toNat = s.pc.toNat + 2 ∧ t.runState = .running ∧ t.errors = .decodeError (wordAtPc s) :: s.errors ∧
      Frame { pc := true, run := true } s t

/-- From every state a step answers a next state: it never faults and never refuses
(spec/93_implementation_defined.md, end of Part 1). -/
def Obligations.EveryStepAnswersANextState : Prop :=
  ∀ s : State, ∃ t, step s = .next t

/-- A step reports at most one error, and only under the condition that names it, in the order of R90's checks
(spec/60_exceptions.md, sections 1 and 2). The conditions rest on decisions D3, D6, D7 and D9 (notes/assumptions/3.md,
6.md, 7.md and 9.md); the report, in the model's own list `errors`, on D2 (2.md). -/
def Obligations.StepReportsAtMostOneError : Prop :=
  ∀ s t : State, step s = .next t →
    t.errors = s.errors ∨
    (4094 < s.pc.toNat ∧ t.errors = .outOfBoundsPC :: s.errors) ∨
    (s.pc.toNat ≤ 4094 ∧ legalWord (wordAtPc s) = false ∧ t.errors = .decodeError (wordAtPc s) :: s.errors) ∨
    ((∃ nnn, Executes s (.callNnn nnn)) ∧ s.sp.val = 16 ∧ t.errors = .stackOverflow :: s.errors) ∨
    (Executes s .ret ∧ s.sp.val = 0 ∧ t.errors = .stackUnderflow :: s.errors)

/-- The run state a step returns is the run state after it, and the pairs it can return are the six of
spec/40_step_cycle.md, R95 (the report channel is decision D2, notes/assumptions/2.md). -/
def Obligations.StepReturnsOneOfSixPairs : Prop :=
  ∀ (s : State) (r : Response), transact .step s = .next r →
    ∃ p rep, r.output = .stepped p rep ∧ p = r.state.runState ∧
      ((p = .running ∧ (rep = .noReport ∨ ∃ bits, rep = .error (.decodeError bits))) ∨
       (p = .finished ∧ (rep = .noReport ∨ rep = .error .stackOverflow ∨ rep = .error .stackUnderflow ∨
          rep = .error .outOfBoundsPC)))

/-- A running Machine becomes Finished by a step in exactly three ways: `pc` above 4094, a call with 16 pending calls,
a return with none (spec/10_state.md, section 9; capacity, placement and the unmasked `pc` are decisions D6, D3 and
D9, notes/assumptions/6.md, 3.md and 9.md). -/
def Obligations.ExactlyThreeWaysToFinish : Prop :=
  ∀ s t : State, s.runState = .running → step s = .next t →
    (t.runState = .finished ↔
      4094 < s.pc.toNat ∨ ((∃ nnn, Executes s (.callNnn nnn)) ∧ s.sp.val = 16) ∨ (Executes s .ret ∧ s.sp.val = 0))

/-- `pc` after every instruction is what the table of spec/10_state.md, section 4, gives it. The skip conditions are
PRESUMED (notes/assumptions/25.md and 26.md) and the key index is decision D10 (10.md); the rows for a call with 16
pending calls and a return with none rest on decisions D5 and D6 (5.md and 6.md), the unmasked sum of `BNNN` on D9
(9.md). -/
def Obligations.PcAfterEveryInstruction : Prop :=
  ∀ (i : Instr) (s t : State), exec i s = .next t → t.pc = pcAfter s i

/-- An instruction changes no register but those the table of spec/10_state.md, section 1, lets it write. The
destination of the `8XY_` group and the register that the timer read writes are PRESUMED (notes/assumptions/28.md and
27.md). -/
def Obligations.RegistersWrittenByEachInstruction : Prop :=
  ∀ (i : Instr) (s t : State), exec i s = .next t → ∀ r, r ∉ writtenRegs i → t.reg r = s.reg r

/-- Whole-machine rule: in a step, each part of the state beside the registers and `pc` changes only by the
instructions that the spec lets write it, and the key latches never change (spec/10_state.md, sections 3 to 10;
spec/20_memory.md, section 1; spec/42_load_alu.md). Which instruction writes which timer is PRESUMED
(notes/assumptions/27.md), that `FX55` and `FX65` leave `I` unchanged is decision D11 (11.md), and the draw counter is
the model's own field for the free value of `CXNN` (13.md). -/
def Obligations.EachPartChangesOnlyByItsInstructions : Prop :=
  ∀ s t : State, step s = .next t →
    t.key = s.key ∧
    (t.i ≠ s.i → (∃ nnn, Executes s (.ldINnn nnn)) ∨ ∃ x, Executes s (.addIVx x) ∨ Executes s (.ldFVx x)) ∧
    (t.stack ≠ s.stack → ∃ nnn, Executes s (.callNnn nnn)) ∧
    (t.sp ≠ s.sp → Executes s .ret ∨ ∃ nnn, Executes s (.callNnn nnn)) ∧
    (t.dt ≠ s.dt → ∃ x, Executes s (.ldDtVx x)) ∧
    (t.st ≠ s.st → ∃ x, Executes s (.ldStVx x)) ∧
    (t.fb ≠ s.fb → Executes s .cls ∨ ∃ x y n, Executes s (.drwVxVyN x y n)) ∧
    (t.mem ≠ s.mem → ∃ x, Executes s (.ldBVx x) ∨ Executes s (.ldMiVx x)) ∧
    (t.draws ≠ s.draws → ∃ x nn, Executes s (.rndVxNn x nn))

/-! Load, ALU and random instructions -/

/-- `6XNN` is the words with `n1 = 6`; it loads its immediate and changes nothing else. -/
def Obligations.LoadImmediateWritesTheRegister : Prop :=
  (∀ w : Word, n1Field w = 0x6 → decodeWord w = .ok (.ldVxNn (xField w) (nnField w))) ∧
  ∀ (s : State) (x : Reg) (nn : Byte),
    ∃ t, exec (.ldVxNn x nn) s = .next t ∧ t.reg x = nn ∧ Frame { regs := [x] } s t

/-- `7XNN` is the words with `n1 = 7`; it adds its immediate modulo 256 and changes nothing else, VF included (unless
VF is `V[X]`). -/
def Obligations.AddImmediateWrapsWithoutFlag : Prop :=
  (∀ w : Word, n1Field w = 0x7 → decodeWord w = .ok (.addVxNn (xField w) (nnField w))) ∧
  ∀ (s : State) (x : Reg) (nn : Byte),
    ∃ t, exec (.addVxNn x nn) s = .next t ∧ (t.reg x).toNat = ((s.reg x).toNat + nn.toNat) % 256 ∧
      Frame { regs := [x] } s t

/-- `8XY0` copies `V[Y]` into `V[X]`; `8XY1`, `8XY2` and `8XY3` combine the two bit by bit into `V[X]`; each changes
nothing else. They are the words with `n1 = 8` and `n4` from 0 to 3. That they write `V[X]`, and that the copy is of
`V[Y]`, is PRESUMED (the spec's passage G5; notes/assumptions/28.md). -/
def Obligations.CopyAndLogicWriteOnlyTheDestination : Prop :=
  (∀ w : Word, n1Field w = 0x8 →
    (n4Field w = 0x0 → decodeWord w = .ok (.ldVxVy (xField w) (yField w))) ∧
    (n4Field w = 0x1 → decodeWord w = .ok (.orVxVy (xField w) (yField w))) ∧
    (n4Field w = 0x2 → decodeWord w = .ok (.andVxVy (xField w) (yField w))) ∧
    (n4Field w = 0x3 → decodeWord w = .ok (.xorVxVy (xField w) (yField w)))) ∧
  ∀ (s : State) (x y : Reg),
    (∃ t, exec (.ldVxVy x y) s = .next t ∧ t.reg x = s.reg y ∧ Frame { regs := [x] } s t) ∧
    (∃ t, exec (.orVxVy x y) s = .next t ∧
      (∀ k < 8, (t.reg x).getLsbD k = ((s.reg x).getLsbD k || (s.reg y).getLsbD k)) ∧ Frame { regs := [x] } s t) ∧
    (∃ t, exec (.andVxVy x y) s = .next t ∧
      (∀ k < 8, (t.reg x).getLsbD k = ((s.reg x).getLsbD k && (s.reg y).getLsbD k)) ∧ Frame { regs := [x] } s t) ∧
    (∃ t, exec (.xorVxVy x y) s = .next t ∧
      (∀ k < 8, (t.reg x).getLsbD k = ((s.reg x).getLsbD k ^^ (s.reg y).getLsbD k)) ∧ Frame { regs := [x] } s t)

/-- `8XY4`: VF is 1 iff the sum of the two bytes exceeds 255, else 0; for `X ≠ F`, `V[X]` is the sum modulo 256, and
with the carry it is the whole sum. It is the words with `n1 = 8` and `n4 = 4`. That the result goes to `V[X]` is
PRESUMED (the spec's passage G5; notes/assumptions/28.md). -/
def Obligations.AddSetsTheCarry : Prop :=
  (∀ w : Word, n1Field w = 0x8 → n4Field w = 0x4 → decodeWord w = .ok (.addVxVy (xField w) (yField w))) ∧
  ∀ (s : State) (x y : Reg), ∃ t, exec (.addVxVy x y) s = .next t ∧
    t.reg regVF = (if 255 < (s.reg x).toNat + (s.reg y).toNat then 1 else 0) ∧
    (x ≠ regVF → (t.reg x).toNat = ((s.reg x).toNat + (s.reg y).toNat) % 256 ∧
      (t.reg x).toNat + 256 * (t.reg regVF).toNat = (s.reg x).toNat + (s.reg y).toNat) ∧
    Frame { regs := [x, regVF] } s t

/-- `8XY5`: VF is 1 iff `V[X] ≥ V[Y]` before, else 0; for `X ≠ F`, `V[X]` is the difference modulo 256. It is the
words with `n1 = 8` and `n4 = 5`. That the result goes to `V[X]` is PRESUMED (the spec's passage G5;
notes/assumptions/28.md). -/
def Obligations.SubtractSetsNoBorrow : Prop :=
  (∀ w : Word, n1Field w = 0x8 → n4Field w = 0x5 → decodeWord w = .ok (.subVxVy (xField w) (yField w))) ∧
  ∀ (s : State) (x y : Reg), ∃ t, exec (.subVxVy x y) s = .next t ∧
    t.reg regVF = (if (s.reg y).toNat ≤ (s.reg x).toNat then 1 else 0) ∧
    (x ≠ regVF → (t.reg x).toNat = ((s.reg x).toNat + 256 - (s.reg y).toNat) % 256 ∧
      (t.reg x).toNat + (s.reg y).toNat = (s.reg x).toNat + 256 * (1 - (t.reg regVF).toNat)) ∧
    Frame { regs := [x, regVF] } s t

/-- `8XY7`: VF is 1 iff `V[Y] ≥ V[X]` before, else 0; for `X ≠ F`, `V[X]` is `V[Y] - V[X]` modulo 256. The reading of
"borrow convention reversed" is the spec's (42_load_alu.md: "which this spec reads as"; notes/assumptions/34.md). That
the result goes to `V[X]` is PRESUMED (the spec's passage G5; notes/assumptions/28.md). -/
def Obligations.ReverseSubtractSetsNoBorrow : Prop :=
  ∀ (s : State) (x y : Reg), ∃ t, exec (.subnVxVy x y) s = .next t ∧
    t.reg regVF = (if (s.reg x).toNat ≤ (s.reg y).toNat then 1 else 0) ∧
    (x ≠ regVF → (t.reg x).toNat = ((s.reg y).toNat + 256 - (s.reg x).toNat) % 256) ∧
    Frame { regs := [x, regVF] } s t

/-- `8XY6` and `8XYE`, whatever `Y`: VF is the bit shifted out of `V[X]`, bit 0 or bit 7 before the shift; for `X ≠
F`, `V[X]` is half, or twice modulo 256, of what it was. They are the words with `n1 = 8` and `n4 = 6` or `n4 = 0xE`.
-/
def Obligations.ShiftsPutTheLostBitInVF : Prop :=
  (∀ w : Word, n1Field w = 0x8 →
    (n4Field w = 0x6 → decodeWord w = .ok (.shrVx (xField w) (yField w))) ∧
    (n4Field w = 0xE → decodeWord w = .ok (.shlVx (xField w) (yField w)))) ∧
  ∀ (s : State) (x y : Reg),
    (∃ t, exec (.shrVx x y) s = .next t ∧ (t.reg regVF).toNat = (s.reg x).toNat % 2 ∧
      (x ≠ regVF → (t.reg x).toNat = (s.reg x).toNat / 2) ∧ Frame { regs := [x, regVF] } s t) ∧
    (∃ t, exec (.shlVx x y) s = .next t ∧ (t.reg regVF).toNat = (s.reg x).toNat / 128 ∧
      (x ≠ regVF → (t.reg x).toNat = 2 * (s.reg x).toNat % 256) ∧ Frame { regs := [x, regVF] } s t)

/-- The flag of each of the five flag-setting ALU instructions is computed from the two registers as they were before,
whatever `X` and `Y` (VF among them), and stands in VF at the end; with `X = F` nothing else changes. The flag of
`8XY7` is the spec's own reading (notes/assumptions/34.md), and that `V[Y]` is left alone rests on the destination
`V[X]`, PRESUMED (28.md). -/
def Obligations.FlagIsWrittenLastWhateverTheOperands : Prop :=
  ∀ (s : State) (x y : Reg) (i : Instr) (flag : Bool),
    (i, flag) ∈ [(.addVxVy x y, decide (255 < (s.reg x).toNat + (s.reg y).toNat)),
      (.subVxVy x y, decide ((s.reg y).toNat ≤ (s.reg x).toNat)), (.shrVx x y, decide ((s.reg x).toNat % 2 = 1)),
      (.subnVxVy x y, decide ((s.reg x).toNat ≤ (s.reg y).toNat)), (.shlVx x y, decide (128 ≤ (s.reg x).toNat))] →
    ∃ t, exec i s = .next t ∧ t.reg regVF = (if flag then 1 else 0) ∧ (x = regVF → Frame { regs := [regVF] } s t)

/-- `CXNN`: `V[X]` is the next random byte AND NN, so it has no bit outside NN; one byte is drawn and nothing else
changes. The byte is a FREE VALUE of the model: the statement holds for every random source (decision D13,
notes/assumptions/13.md). -/
def Obligations.RandomByteIsMasked : Prop :=
  ∀ (s : State) (x : Reg) (nn : Byte), ∃ t, exec (.rndVxNn x nn) s = .next t ∧
    t.reg x = Config.draw s.draws &&& nn ∧ t.reg x &&& ~~~nn = 0 ∧ t.draws = s.draws + 1 ∧
    Frame { regs := [x], draws := true } s t

/-! Index register and memory instructions -/

/-- `ANNN`, `FX1E` and `FX29`: `I` is the address, the 16-bit wrapped sum, or the glyph address of the low nibble;
nothing else changes, VF included. They are the words with `n1 = 0xA`, and with `n1 = 0xF` and low byte 0x1E or 0x29.
-/
def Obligations.IndexInstructionsWriteOnlyI : Prop :=
  (∀ w : Word, (n1Field w = 0xA → decodeWord w = .ok (.ldINnn (nnnField w))) ∧
    (n1Field w = 0xF → nnField w = 0x1E → decodeWord w = .ok (.addIVx (xField w))) ∧
    (n1Field w = 0xF → nnField w = 0x29 → decodeWord w = .ok (.ldFVx (xField w)))) ∧
  ∀ (s : State) (nnn : Addr) (x : Reg),
    (∃ t, exec (.ldINnn nnn) s = .next t ∧ t.i.toNat = nnn.toNat ∧ Frame { index := true } s t) ∧
    (∃ t, exec (.addIVx x) s = .next t ∧ t.i.toNat = (s.i.toNat + (s.reg x).toNat) % 65536 ∧
      Frame { index := true } s t) ∧
    (∃ t, exec (.ldFVx x) s = .next t ∧ t.i.toNat = 0x050 + 5 * ((s.reg x).toNat % 16) ∧
      Frame { index := true } s t)

/-- `FX33` in canonical memory: the three decimal digits of `V[X]` at `ea(I)`, `ea(I + 1)` and `ea(I + 2)`, three
distinct bytes, and nothing else changes. It is the words with `n1 = 0xF` and low byte 0x33. That each address is
masked to 12 bits is the spec's decision D8 (notes/assumptions/8.md), that bytes below 0x200 are written like others
D14 (14.md). -/
def Obligations.DecimalDigitsAreStored : Prop :=
  (∀ w : Word, n1Field w = 0xF → nnField w = 0x33 → decodeWord w = .ok (.ldBVx (xField w))) ∧
  ∀ (s : State) (x : Reg), Memory.wf s.mem = true →
    ∃ t, exec (.ldBVx x) s = .next t ∧
      (t.readMem (ea s.i)).toNat = (s.reg x).toNat / 100 ∧
      (t.readMem (ea (s.i + 1))).toNat = (s.reg x).toNat / 10 % 10 ∧
      (t.readMem (ea (s.i + 2))).toNat = (s.reg x).toNat % 10 ∧
      [ea s.i, ea (s.i + 1), ea (s.i + 2)].Nodup ∧ Frame { stored := [ea s.i, ea (s.i + 1), ea (s.i + 2)] } s t

/-- `FX55` in canonical memory: `V[k]` at `ea(I + k)` for every `k` up to `X`, and nothing else changes. That `I` is
unchanged is the spec's decision D11 (notes/assumptions/11.md), the masked addresses are D8 (8.md), bytes below 0x200
are written like others by D14 (14.md). -/
def Obligations.RegistersAreStoredFromI : Prop :=
  ∀ (s : State) (x : Reg), Memory.wf s.mem = true →
    ∃ t, exec (.ldMiVx x) s = .next t ∧
      (∀ k : Reg, k ≤ x → t.readMem (ea (s.i + BitVec.ofNat 16 k.val)) = s.reg k) ∧
      Frame { stored := touched s.i (x.val + 1) } s t

/-- `FX65`: `V[k]` is the byte at `ea(I + k)` for every `k` up to `X`, and nothing else changes. That `I` is unchanged
is the spec's decision D11 (notes/assumptions/11.md), the masked addresses are D8 (8.md). -/
def Obligations.RegistersAreLoadedFromI : Prop :=
  ∀ (s : State) (x : Reg), ∃ t, exec (.ldVxMi x) s = .next t ∧
    (∀ k : Reg, k ≤ x → t.reg k = s.readMem (ea (s.i + BitVec.ofNat 16 k.val))) ∧
    Frame { regs := (List.finRange 16).filter (· ≤ x) } s t

/-- `FX55` and later `FX65` with the same `I` and memory give back every register up to `X`, for every `X` and every
`I`, those whose block wraps past 0xFFF included. It rests on the spec's decisions D11 (`I` unchanged) and D8 (each
address masked), notes/assumptions/11.md and 8.md. -/
def Obligations.StoreThenLoadRestoresTheRegisters : Prop :=
  ∀ (s : State) (x : Reg), Memory.wf s.mem = true →
    ∃ t, exec (.ldMiVx x) s = .next t ∧
      ∀ u : State, u.mem = t.mem → u.i = t.i →
        ∃ w, exec (.ldVxMi x) u = .next w ∧ ∀ k : Reg, k ≤ x → w.reg k = s.reg k

/-- A step that stores both bytes of the next instruction word changes what the next step fetches: after `FX55` with
`X ≥ 1` and `I` pointing at the word after it, the word at `pc` is `V[0]`, `V[1]` (spec/20_memory.md, section 12;
decision D26, notes/assumptions/24.md; the masked addresses are D8, 8.md). -/
def Obligations.StoredWordIsFetchedNext : Prop :=
  ∀ (s t : State) (x : Reg), Memory.wf s.mem = true → Executes s (.ldMiVx x) → 1 ≤ x.val → ea s.i = ea (s.pc + 2) →
    step s = .next t → wordAtPc t = wordOfBytes (s.reg 0) (s.reg 1)

/-! Control transfer -/

/-- `1NNN` sets `pc` to NNN; `BNNN` sets it to NNN + V0, not reduced to 12 bits; nothing else changes. That `pc` is
never masked is the spec's decision D9 (conflicts C1 and C2; notes/assumptions/9.md). -/
def Obligations.JumpsSetPc : Prop :=
  ∀ (s : State) (nnn : Addr),
    (∃ t, exec (.jpNnn nnn) s = .next t ∧ t.pc.toNat = nnn.toNat ∧ Frame { pc := true } s t) ∧
    (∃ t, exec (.jpV0Nnn nnn) s = .next t ∧ t.pc.toNat = nnn.toNat + (s.reg 0).toNat ∧ Frame { pc := true } s t)

/-- `2NNN` with fewer than 16 pending calls: `pc` (the address after the call) in slot `sp`, `sp` one more, `pc` NNN;
every other slot and everything else unchanged. That the 16th call succeeds is the spec's decision D6
(notes/assumptions/6.md). -/
def Obligations.CallPushesTheReturnAddress : Prop :=
  ∀ (s : State) (nnn : Addr) (h : s.sp.val < 16),
    ∃ t, exec (.callNnn nnn) s = .next t ∧ t.stack[s.sp.val] = s.pc ∧ t.sp.val = s.sp.val + 1 ∧
      t.pc.toNat = nnn.toNat ∧ (∀ k : Fin 16, k.val ≠ s.sp.val → t.stack[k.val] = s.stack[k.val]) ∧
      Frame { pc := true, stack := true } s t

/-- `2NNN` with 16 pending calls takes the error path: Finished, StackOverflow reported, nothing else changed; `pc`
stays `p + 2` (decisions D5 and D6, notes/assumptions/5.md and 6.md). The report, in the model's own list `errors`, is
decision D2 (2.md). -/
def Obligations.CallOnAFullStackFinishes : Prop :=
  ∀ (s : State) (nnn : Addr), s.sp.val = 16 →
    ∃ t, exec (.callNnn nnn) s = .next t ∧ t.runState = .finished ∧ t.errors = .stackOverflow :: s.errors ∧
      Frame { run := true } s t

/-- `00EE` with a pending call: `sp` one less, `pc` the address in the slot it leaves, which keeps its value; nothing
else changes. With none, it takes the error path: Finished, StackUnderflow reported, nothing else changed, which is
the spec's decision D5 (notes/assumptions/5.md). The report, in the model's own list `errors`, is decision D2 (2.md).
-/
def Obligations.ReturnPopsTheReturnAddress : Prop :=
  ∀ s : State,
    (∀ h : 0 < s.sp.val, ∃ t, exec .ret s = .next t ∧ t.sp.val = s.sp.val - 1 ∧
      t.pc = s.stack[s.sp.val - 1]'(by have := s.sp.isLt; omega) ∧ t.stack = s.stack ∧
      Frame { pc := true, stack := true } s t) ∧
    (s.sp.val = 0 → ∃ t, exec .ret s = .next t ∧ t.runState = .finished ∧ t.errors = .stackUnderflow :: s.errors ∧
      Frame { run := true } s t)

/-- A call and eventually its return, from any later state of the call's depth whose pending slots are as the call
left them (balanced calls in between may have overwritten the slots above): `pc` is the address after the call and
`sp` what it was before it (spec/95_test_vectors.md S10; that the 16th call succeeds is decision D6,
notes/assumptions/6.md). -/
def Obligations.CallThenReturnComesBack : Prop :=
  ∀ (s : State) (nnn : Addr), s.sp.val < 16 →
    ∃ t, exec (.callNnn nnn) s = .next t ∧
      ∀ u : State, u.sp = t.sp → (∀ k : Fin 16, k.val < u.sp.val → u.stack[k.val] = t.stack[k.val]) →
        ∃ w, exec .ret u = .next w ∧ w.pc = s.pc ∧ w.sp = s.sp ∧ w.runState = u.runState

/-- The four comparing skips add 2 to `pc` exactly when their condition holds, and change nothing else. The conditions
are PRESUMED: the source does not state them (spec/91_not_in_source.md N4; notes/assumptions/25.md). -/
def Obligations.ComparingSkips : Prop :=
  ∀ (s : State) (x y : Reg) (nn : Byte),
    (∃ t, exec (.seVxNn x nn) s = .next t ∧ t.pc = (if s.reg x = nn then s.pc + 2 else s.pc) ∧
      Frame { pc := true } s t) ∧
    (∃ t, exec (.sneVxNn x nn) s = .next t ∧ t.pc = (if s.reg x = nn then s.pc else s.pc + 2) ∧
      Frame { pc := true } s t) ∧
    (∃ t, exec (.seVxVy x y) s = .next t ∧ t.pc = (if s.reg x = s.reg y then s.pc + 2 else s.pc) ∧
      Frame { pc := true } s t) ∧
    (∃ t, exec (.sneVxVy x y) s = .next t ∧ t.pc = (if s.reg x = s.reg y then s.pc else s.pc + 2) ∧
      Frame { pc := true } s t)

/-- A `1NNN` to its own address changes nothing at all: the customary end of a program (spec/70_reset_and_hazards.md,
section 3). -/
def Obligations.JumpToItselfChangesNothing : Prop :=
  ∀ s : State, Spinning s → step s = .next s

/-! Display -/

/-- `00E0`, that word exactly, makes every cell false and changes nothing else, VF included. -/
def Obligations.ClearMakesEveryCellFalse : Prop :=
  (∀ w : Word, decodeWord w = .ok .cls ↔ w = 0x00E0) ∧
  ∀ s : State, ∃ t, exec .cls s = .next t ∧ (∀ k : Fin 2048, t.fb[k.val] = false) ∧ Frame { display := true } s t

/-- `DXYN`: every pixel is inverted iff the sprite has a 1 bit over it, each pixel's coordinates wrapped by
themselves; VF is 1 iff such a pixel was on before, else 0; nothing else changes. That `N = 0` draws nothing is the
spec's decision D20 (notes/assumptions/19.md), that the address of each row byte is masked is D8 (8.md). -/
def Obligations.DrawInvertsUnderTheSprite : Prop :=
  ∀ (s : State) (x y : Reg) (n : Nibble), ∃ t, exec (.drwVxVyN x y n) s = .next t ∧
    (∀ (px py : Nat) (hx : px < 64) (hy : py < 32),
      (SpriteBitOver s x y n px py → (t.fb[px + 64 * py]'(by omega)) = !(s.fb[px + 64 * py]'(by omega))) ∧
      (¬ SpriteBitOver s x y n px py → (t.fb[px + 64 * py]'(by omega)) = s.fb[px + 64 * py]'(by omega))) ∧
    ((∃ (px py : Nat) (hx : px < 64) (hy : py < 32),
      SpriteBitOver s x y n px py ∧ (s.fb[px + 64 * py]'(by omega)) = true) → t.reg regVF = 1) ∧
    ((∀ (px py : Nat) (hx : px < 64) (hy : py < 32),
      SpriteBitOver s x y n px py → (s.fb[px + 64 * py]'(by omega)) = false) → t.reg regVF = 0) ∧
    Frame { regs := [regVF], display := true } s t

/-- Drawing the same sprite again at the same place restores the framebuffer, and the second draw reports a collision
iff some 1 bit of the sprite met a pixel that was off before the first draw. The masked row addresses are the spec's
decision D8, the empty sprite of `N = 0` is D20 (notes/assumptions/8.md and 19.md). -/
def Obligations.DrawingTwiceRestoresTheScreen : Prop :=
  ∀ (s : State) (x y : Reg) (n : Nibble), ∃ t, exec (.drwVxVyN x y n) s = .next t ∧
    ∀ u : State, u.fb = t.fb → u.mem = s.mem → u.i = s.i → u.reg x = s.reg x → u.reg y = s.reg y →
      ∃ w, exec (.drwVxVyN x y n) u = .next w ∧ w.fb = s.fb ∧
        (w.reg regVF = 1 ↔ ∃ (px py : Nat) (hx : px < 64) (hy : py < 32),
          SpriteBitOver s x y n px py ∧ (s.fb[px + 64 * py]'(by omega)) = false)

/-! Keypad and timers -/

/-- `EX9E` adds 2 to `pc` iff the key of the low nibble of `V[X]` is down, `EXA1` iff it is not; nothing else changes.
The assignment is PRESUMED and the nibble a decision (notes/assumptions/26.md and 10.md). -/
def Obligations.KeySkips : Prop :=
  ∀ (s : State) (x : Reg) (k : Fin 16), k.val = (s.reg x).toNat % 16 →
    (∃ t, exec (.skpVx x) s = .next t ∧ t.pc = (if s.key[k.val] then s.pc + 2 else s.pc) ∧
      Frame { pc := true } s t) ∧
    (∃ t, exec (.sknpVx x) s = .next t ∧ t.pc = (if s.key[k.val] then s.pc else s.pc + 2) ∧
      Frame { pc := true } s t)

/-- `FX0A`: when `k` is the lowest key that is down, `V[X]` is `k` and nothing else changes (`pc` stays `p + 2`); when
no key is down, `pc` goes back by 2 and nothing else changes. -/
def Obligations.WaitForKeyTakesTheLowestKey : Prop :=
  ∀ (s : State) (x : Reg),
    (∀ k : Fin 16, s.key[k.val] = true → (∀ j : Fin 16, j < k → s.key[j.val] = false) →
      ∃ t, exec (.ldVxK x) s = .next t ∧ (t.reg x).toNat = k.val ∧ Frame { regs := [x] } s t) ∧
    ((∀ k : Fin 16, s.key[k.val] = false) →
      ∃ t, exec (.ldVxK x) s = .next t ∧ t.pc = s.pc - 2 ∧ Frame { pc := true } s t)

/-- While `FX0A` waits, a step changes nothing at all. -/
def Obligations.WaitingForAKeyChangesNothing : Prop :=
  ∀ (s : State) (x : Reg), Executes s (.ldVxK x) → (∀ k : Fin 16, s.key[k.val] = false) → step s = .next s

/-- `FX07` reads DT into `V[X]`, `FX15` writes `V[X]` to DT, `FX18` writes it to ST; nothing else changes. Which
pattern does which is PRESUMED (spec/91_not_in_source.md N4; notes/assumptions/27.md). -/
def Obligations.TimerTransfers : Prop :=
  ∀ (s : State) (x : Reg),
    (∃ t, exec (.ldVxDt x) s = .next t ∧ t.reg x = s.dt ∧ Frame { regs := [x] } s t) ∧
    (∃ t, exec (.ldDtVx x) s = .next t ∧ t.dt = s.reg x ∧ Frame { delay := true } s t) ∧
    (∃ t, exec (.ldStVx x) s = .next t ∧ t.st = s.reg x ∧ Frame { sound := true } s t)

/-! The other transactions -/

/-- A tick takes each timer down by one, floor at zero, changes nothing else, and returns PlaySound iff ST was 1. It
does so in every run state (decisions D15 and D19, notes/assumptions/15.md and 18.md). -/
def Obligations.TickCountsDownBothTimers : Prop :=
  ∀ s : State, ∃ t sig, transact .tickTimers s = .next ⟨t, .ticked sig⟩ ∧ t.dt.toNat = s.dt.toNat - 1 ∧
    t.st.toNat = s.st.toNat - 1 ∧ (sig = .playSound ↔ s.st.toNat = 1) ∧ Frame { delay := true, sound := true } s t

/-- A tick and a step whose instruction is no timer instruction can change places: the step neither sees nor moves the
timers (spec/60_exceptions.md, section 5; spec/70_reset_and_hazards.md, section 4). Where the step finishes the
Machine, or finds it finished, a tick acts on a finished Machine: that it still counts is a choice, the spec's
decision D15 (notes/assumptions/15.md). Which instructions are the timer's is PRESUMED (27.md). -/
def Obligations.TicksCommuteWithOtherSteps : Prop :=
  ∀ s t : State, step s = .next t →
    (¬ ∃ x, Executes s (.ldVxDt x) ∨ Executes s (.ldDtVx x) ∨ Executes s (.ldStVx x)) →
    step (tickTimers s) = .next (tickTimers t)

/-- `set_key` with an index up to 15 sets that one latch and nothing else, in every run state; with a greater index it
is refused (decisions D15 and D17, notes/assumptions/15.md and 17.md). -/
def Obligations.SetKeySetsOneLatch : Prop :=
  ∀ (s : State) (index : Nat) (pressed : Bool),
    (∀ h : index < 16, ∃ t, transact (.setKey index pressed) s = .next ⟨t, .nothing⟩ ∧ t.key[index] = pressed ∧
      (∀ k : Fin 16, k.val ≠ index → t.key[k.val] = s.key[k.val]) ∧ t = { s with key := t.key }) ∧
    (16 ≤ index → transact (.setKey index pressed) s = .refused (.keyIndexOutOfRange index))

/-- `load_program` of at most 3584 bytes, in canonical memory, copies them to 0x200 on and changes nothing else; of
more, it is refused (decision D16, notes/assumptions/16.md). -/
def Obligations.LoadProgramCopiesTheImage : Prop :=
  ∀ (s : State) (bytes : List Byte),
    (Memory.wf s.mem = true → bytes.length ≤ 3584 →
      ∃ t, transact (.loadProgram bytes) s = .next ⟨t, .nothing⟩ ∧
        (∀ (k : Nat) (h : k < bytes.length), t.readMem (BitVec.ofNat 12 (0x200 + k)) = bytes[k]) ∧
        (∀ a : Addr, a.toNat < 0x200 ∨ 0x200 + bytes.length ≤ a.toNat → t.readMem a = s.readMem a) ∧
        t = { s with mem := t.mem }) ∧
    (3584 < bytes.length → transact (.loadProgram bytes) s = .refused (.oversizedRom bytes.length))

/-- Only the host's two contract violations are ever refused, and no transaction faults (spec/60_exceptions.md, R175's
two cases; decisions D16 and D17, notes/assumptions/16.md and 17.md). -/
def Obligations.OnlyContractViolationsAreRefused : Prop :=
  ∀ (a : Transaction) (s : State),
    (∃ r, transact a s = .next r) ∨
    (∃ bytes, a = .loadProgram bytes ∧ 3584 < bytes.length ∧ transact a s = .refused (.oversizedRom bytes.length)) ∨
    (∃ index pressed, a = .setKey index pressed ∧ 15 < index ∧ transact a s = .refused (.keyIndexOutOfRange index))

/-- `framebuffer` returns the 2048 cells in row-major order and changes nothing. That it shows the display between two
steps is the spec's decision D24 (notes/assumptions/22.md). -/
def Obligations.FramebufferReturnsTheCells : Prop :=
  ∀ s : State, ∃ cells, transact .framebuffer s = .next ⟨s, .pixels cells⟩ ∧ cells.length = 2048 ∧
    ∀ (x y : Nat) (hx : x < 64) (hy : y < 32), cells[x + 64 * y]? = some (s.fb[x + 64 * y]'(by omega))

/-- What reset leaves, and `new` after it: memory zero outside the font region and FONT in it, every register, `I`,
every stack slot and both timers 0, `pc` 0x200, display and keypad false, nothing reported. `sp` 0 and Running are the
spec's decision D22 (notes/assumptions/21.md), the FONT bytes a parameter (notes/assumptions/12.md). That nothing is
reported is said of the model's own list `errors` (decision D2, 2.md), and the draw counter that goes on is the
model's own field (13.md). -/
def Obligations.NewGivesTheResetState : Prop :=
  ∀ s : State, ∃ t, transact .new s = .next ⟨t, .nothing⟩ ∧ t = { State.reset with draws := s.draws } ∧
    (∀ a : Addr, (a.toNat < 0x050 ∨ 0x0A0 ≤ a.toNat) → t.readMem a = 0) ∧
    (∀ k < 80, some (t.readMem (BitVec.ofNat 12 (0x050 + k))) = Config.font[k]?) ∧
    (∀ r, t.reg r = 0) ∧ t.i = 0 ∧ t.pc = 0x200 ∧ (∀ k : Fin 16, t.stack[k.val] = 0) ∧ t.sp.val = 0 ∧
    t.dt = 0 ∧ t.st = 0 ∧ (∀ k : Fin 2048, t.fb[k.val] = false) ∧ (∀ k : Fin 16, t.key[k.val] = false) ∧
    t.runState = .running ∧ t.errors = []

/-! Invariants, runs and what cannot be observed -/

/-- The invariant holds after reset. The canonical form is the model's representation (notes/assumptions/30.md), and
that no return address is pending is a choice, `sp` 0 by the spec's decision D22 (21.md). -/
def Obligations.ResetMeetsTheInvariant : Prop := Inv State.reset

/-- Every step keeps the invariant: memory canonical and within 0..4095, pending return addresses in 2..4096, `pc` at
most 0x10FE. The canonical form is the model's representation (notes/assumptions/30.md). That data addresses stay
within 0..4095 is the mask of decision D8 (8.md). -/
def Obligations.StepKeepsTheInvariant : Prop :=
  ∀ s t : State, Inv s → step s = .next t → Inv t

/-- Every state reachable from reset by transactions in any order meets the invariant. That the order is free is the
spec's decision D23 (notes/assumptions/1.md). It rests on the reset value of `sp`, decision D22 (21.md), on the
address mask, D8 (8.md), and on the canonical form, the model's representation (30.md). -/
def Obligations.EveryReachableStateMeetsTheInvariant : Prop :=
  ∀ s : State, Reachable s → Inv s

/-- Nothing but `new` leaves Finished: from a finished state every word of the other transactions completes and
changes nothing but the timers, the key latches and, where it loads a program, memory; so the state after it is
finished too. Ticks and key changes work on a finished Machine by the spec's decision D15, a load whenever called by
D16, and a refused transaction is skipped (notes/assumptions/15.md, 16.md and 36.md). -/
def Obligations.FinishedIsAbsorbing : Prop :=
  ∀ (as : List Transaction) (s : State), s.runState = .finished → .new ∉ as →
    ∃ t, runTransactions as s = .next t ∧ t = { s with dt := t.dt, st := t.st, key := t.key, mem := t.mem } ∧
      ((∀ bytes, .loadProgram bytes ∉ as) → t.mem = s.mem)

/-- Stack slots at or above `sp` are unobservable: two states that differ only there step to states that differ only
there (spec/10_state.md, R25's derived sentence). -/
def Obligations.StaleStackSlotsAreUnobservable : Prop :=
  ∀ s s' t : State, SameButStaleSlots s s' → step s = .next t → ∃ t', step s' = .next t' ∧ SameButStaleSlots t t'

/-- The four high bits of `I` are unobservable: two states that differ only there step to states that differ only
there (spec/90_conflicts.md C10; the mask is decision D8, notes/assumptions/8.md). -/
def Obligations.HighBitsOfIAreUnobservable : Prop :=
  ∀ s s' t : State, SameButHighIndex s s' → step s = .next t → ∃ t', step s' = .next t' ∧ SameButHighIndex t t'

/-- An end of run lasts: from it, every word of steps, ticks, key changes and framebuffer reads completes at an end of
run again and changes nothing but the timers and the key latches; the timers still count
(spec/70_reset_and_hazards.md, section 3). What an end of run is, a finished Machine or a jump to itself, is the
model's choice, taken from the spec's example (notes/assumptions/37.md); that a finished Machine still ticks is
decision D15 (15.md). -/
def Obligations.EndOfRunLasts : Prop :=
  ∀ (as : List Transaction) (s : State), EndOfRun s →
    (∀ a ∈ as, a = .step ∨ a = .tickTimers ∨ a = .framebuffer ∨ ∃ index pressed, a = .setKey index pressed) →
    ∃ t, runTransactions as s = .next t ∧ EndOfRun t ∧ t = { s with dt := t.dt, st := t.st, key := t.key } ∧
      t.dt.toNat = s.dt.toNat - as.count .tickTimers ∧ t.st.toNat = s.st.toNat - as.count .tickTimers
end

