-- ==== Sys2Proof/Laws/State.lean ====
section
/-! SUPPORT. The fields of a state after each update, one lemma per field per update, and the registers and key latches
read after a write. -/

namespace Sys2Proof.Machine

variable (s : State)

@[simp] theorem State.setReg_mem (x : Reg) (b : Byte) : (s.setReg x b).mem = s.mem := rfl
@[simp] theorem State.setReg_v (x : Reg) (b : Byte) : (s.setReg x b).v = s.v.set x.val b := rfl
@[simp] theorem State.setReg_i (x : Reg) (b : Byte) : (s.setReg x b).i = s.i := rfl
@[simp] theorem State.setReg_pc (x : Reg) (b : Byte) : (s.setReg x b).pc = s.pc := rfl
@[simp] theorem State.setReg_stack (x : Reg) (b : Byte) : (s.setReg x b).stack = s.stack := rfl
@[simp] theorem State.setReg_sp (x : Reg) (b : Byte) : (s.setReg x b).sp = s.sp := rfl
@[simp] theorem State.setReg_dt (x : Reg) (b : Byte) : (s.setReg x b).dt = s.dt := rfl
@[simp] theorem State.setReg_st (x : Reg) (b : Byte) : (s.setReg x b).st = s.st := rfl
@[simp] theorem State.setReg_fb (x : Reg) (b : Byte) : (s.setReg x b).fb = s.fb := rfl
@[simp] theorem State.setReg_key (x : Reg) (b : Byte) : (s.setReg x b).key = s.key := rfl
@[simp] theorem State.setReg_runState (x : Reg) (b : Byte) : (s.setReg x b).runState = s.runState := rfl
@[simp] theorem State.setReg_errors (x : Reg) (b : Byte) : (s.setReg x b).errors = s.errors := rfl
@[simp] theorem State.setReg_draws (x : Reg) (b : Byte) : (s.setReg x b).draws = s.draws := rfl

@[simp] theorem State.setI_mem (w : Word) : (s.setI w).mem = s.mem := rfl
@[simp] theorem State.setI_v (w : Word) : (s.setI w).v = s.v := rfl
@[simp] theorem State.setI_i (w : Word) : (s.setI w).i = w := rfl
@[simp] theorem State.setI_pc (w : Word) : (s.setI w).pc = s.pc := rfl
@[simp] theorem State.setI_stack (w : Word) : (s.setI w).stack = s.stack := rfl
@[simp] theorem State.setI_sp (w : Word) : (s.setI w).sp = s.sp := rfl
@[simp] theorem State.setI_dt (w : Word) : (s.setI w).dt = s.dt := rfl
@[simp] theorem State.setI_st (w : Word) : (s.setI w).st = s.st := rfl
@[simp] theorem State.setI_fb (w : Word) : (s.setI w).fb = s.fb := rfl
@[simp] theorem State.setI_key (w : Word) : (s.setI w).key = s.key := rfl
@[simp] theorem State.setI_runState (w : Word) : (s.setI w).runState = s.runState := rfl
@[simp] theorem State.setI_errors (w : Word) : (s.setI w).errors = s.errors := rfl
@[simp] theorem State.setI_draws (w : Word) : (s.setI w).draws = s.draws := rfl

@[simp] theorem State.setPc_mem (w : Word) : (s.setPc w).mem = s.mem := rfl
@[simp] theorem State.setPc_v (w : Word) : (s.setPc w).v = s.v := rfl
@[simp] theorem State.setPc_i (w : Word) : (s.setPc w).i = s.i := rfl
@[simp] theorem State.setPc_pc (w : Word) : (s.setPc w).pc = w := rfl
@[simp] theorem State.setPc_stack (w : Word) : (s.setPc w).stack = s.stack := rfl
@[simp] theorem State.setPc_sp (w : Word) : (s.setPc w).sp = s.sp := rfl
@[simp] theorem State.setPc_dt (w : Word) : (s.setPc w).dt = s.dt := rfl
@[simp] theorem State.setPc_st (w : Word) : (s.setPc w).st = s.st := rfl
@[simp] theorem State.setPc_fb (w : Word) : (s.setPc w).fb = s.fb := rfl
@[simp] theorem State.setPc_key (w : Word) : (s.setPc w).key = s.key := rfl
@[simp] theorem State.setPc_runState (w : Word) : (s.setPc w).runState = s.runState := rfl
@[simp] theorem State.setPc_errors (w : Word) : (s.setPc w).errors = s.errors := rfl
@[simp] theorem State.setPc_draws (w : Word) : (s.setPc w).draws = s.draws := rfl

@[simp] theorem State.setDt_mem (b : Byte) : (s.setDt b).mem = s.mem := rfl
@[simp] theorem State.setDt_v (b : Byte) : (s.setDt b).v = s.v := rfl
@[simp] theorem State.setDt_i (b : Byte) : (s.setDt b).i = s.i := rfl
@[simp] theorem State.setDt_pc (b : Byte) : (s.setDt b).pc = s.pc := rfl
@[simp] theorem State.setDt_stack (b : Byte) : (s.setDt b).stack = s.stack := rfl
@[simp] theorem State.setDt_sp (b : Byte) : (s.setDt b).sp = s.sp := rfl
@[simp] theorem State.setDt_dt (b : Byte) : (s.setDt b).dt = b := rfl
@[simp] theorem State.setDt_st (b : Byte) : (s.setDt b).st = s.st := rfl
@[simp] theorem State.setDt_fb (b : Byte) : (s.setDt b).fb = s.fb := rfl
@[simp] theorem State.setDt_key (b : Byte) : (s.setDt b).key = s.key := rfl
@[simp] theorem State.setDt_runState (b : Byte) : (s.setDt b).runState = s.runState := rfl
@[simp] theorem State.setDt_errors (b : Byte) : (s.setDt b).errors = s.errors := rfl
@[simp] theorem State.setDt_draws (b : Byte) : (s.setDt b).draws = s.draws := rfl

@[simp] theorem State.setSt_mem (b : Byte) : (s.setSt b).mem = s.mem := rfl
@[simp] theorem State.setSt_v (b : Byte) : (s.setSt b).v = s.v := rfl
@[simp] theorem State.setSt_i (b : Byte) : (s.setSt b).i = s.i := rfl
@[simp] theorem State.setSt_pc (b : Byte) : (s.setSt b).pc = s.pc := rfl
@[simp] theorem State.setSt_stack (b : Byte) : (s.setSt b).stack = s.stack := rfl
@[simp] theorem State.setSt_sp (b : Byte) : (s.setSt b).sp = s.sp := rfl
@[simp] theorem State.setSt_dt (b : Byte) : (s.setSt b).dt = s.dt := rfl
@[simp] theorem State.setSt_st (b : Byte) : (s.setSt b).st = b := rfl
@[simp] theorem State.setSt_fb (b : Byte) : (s.setSt b).fb = s.fb := rfl
@[simp] theorem State.setSt_key (b : Byte) : (s.setSt b).key = s.key := rfl
@[simp] theorem State.setSt_runState (b : Byte) : (s.setSt b).runState = s.runState := rfl
@[simp] theorem State.setSt_errors (b : Byte) : (s.setSt b).errors = s.errors := rfl
@[simp] theorem State.setSt_draws (b : Byte) : (s.setSt b).draws = s.draws := rfl

@[simp] theorem State.setFb_mem (f : FrameBuffer) : (s.setFb f).mem = s.mem := rfl
@[simp] theorem State.setFb_v (f : FrameBuffer) : (s.setFb f).v = s.v := rfl
@[simp] theorem State.setFb_i (f : FrameBuffer) : (s.setFb f).i = s.i := rfl
@[simp] theorem State.setFb_pc (f : FrameBuffer) : (s.setFb f).pc = s.pc := rfl
@[simp] theorem State.setFb_stack (f : FrameBuffer) : (s.setFb f).stack = s.stack := rfl
@[simp] theorem State.setFb_sp (f : FrameBuffer) : (s.setFb f).sp = s.sp := rfl
@[simp] theorem State.setFb_dt (f : FrameBuffer) : (s.setFb f).dt = s.dt := rfl
@[simp] theorem State.setFb_st (f : FrameBuffer) : (s.setFb f).st = s.st := rfl
@[simp] theorem State.setFb_fb (f : FrameBuffer) : (s.setFb f).fb = f := rfl
@[simp] theorem State.setFb_key (f : FrameBuffer) : (s.setFb f).key = s.key := rfl
@[simp] theorem State.setFb_runState (f : FrameBuffer) : (s.setFb f).runState = s.runState := rfl
@[simp] theorem State.setFb_errors (f : FrameBuffer) : (s.setFb f).errors = s.errors := rfl
@[simp] theorem State.setFb_draws (f : FrameBuffer) : (s.setFb f).draws = s.draws := rfl

@[simp] theorem State.setKeyLatch_mem (k : Fin 16) (p : Bool) : (s.setKeyLatch k p).mem = s.mem := rfl
@[simp] theorem State.setKeyLatch_v (k : Fin 16) (p : Bool) : (s.setKeyLatch k p).v = s.v := rfl
@[simp] theorem State.setKeyLatch_i (k : Fin 16) (p : Bool) : (s.setKeyLatch k p).i = s.i := rfl
@[simp] theorem State.setKeyLatch_pc (k : Fin 16) (p : Bool) : (s.setKeyLatch k p).pc = s.pc := rfl
@[simp] theorem State.setKeyLatch_stack (k : Fin 16) (p : Bool) : (s.setKeyLatch k p).stack = s.stack := rfl
@[simp] theorem State.setKeyLatch_sp (k : Fin 16) (p : Bool) : (s.setKeyLatch k p).sp = s.sp := rfl
@[simp] theorem State.setKeyLatch_dt (k : Fin 16) (p : Bool) : (s.setKeyLatch k p).dt = s.dt := rfl
@[simp] theorem State.setKeyLatch_st (k : Fin 16) (p : Bool) : (s.setKeyLatch k p).st = s.st := rfl
@[simp] theorem State.setKeyLatch_fb (k : Fin 16) (p : Bool) : (s.setKeyLatch k p).fb = s.fb := rfl
@[simp] theorem State.setKeyLatch_key (k : Fin 16) (p : Bool) : (s.setKeyLatch k p).key = s.key.set k.val p := rfl
@[simp] theorem State.setKeyLatch_runState (k : Fin 16) (p : Bool) : (s.setKeyLatch k p).runState = s.runState := rfl
@[simp] theorem State.setKeyLatch_errors (k : Fin 16) (p : Bool) : (s.setKeyLatch k p).errors = s.errors := rfl
@[simp] theorem State.setKeyLatch_draws (k : Fin 16) (p : Bool) : (s.setKeyLatch k p).draws = s.draws := rfl

@[simp] theorem State.writeMem_mem (a : Addr) (b : Byte) : (s.writeMem a b).mem = Memory.writeAt s.mem a.toNat b := rfl
@[simp] theorem State.writeMem_v (a : Addr) (b : Byte) : (s.writeMem a b).v = s.v := rfl
@[simp] theorem State.writeMem_i (a : Addr) (b : Byte) : (s.writeMem a b).i = s.i := rfl
@[simp] theorem State.writeMem_pc (a : Addr) (b : Byte) : (s.writeMem a b).pc = s.pc := rfl
@[simp] theorem State.writeMem_stack (a : Addr) (b : Byte) : (s.writeMem a b).stack = s.stack := rfl
@[simp] theorem State.writeMem_sp (a : Addr) (b : Byte) : (s.writeMem a b).sp = s.sp := rfl
@[simp] theorem State.writeMem_dt (a : Addr) (b : Byte) : (s.writeMem a b).dt = s.dt := rfl
@[simp] theorem State.writeMem_st (a : Addr) (b : Byte) : (s.writeMem a b).st = s.st := rfl
@[simp] theorem State.writeMem_fb (a : Addr) (b : Byte) : (s.writeMem a b).fb = s.fb := rfl
@[simp] theorem State.writeMem_key (a : Addr) (b : Byte) : (s.writeMem a b).key = s.key := rfl
@[simp] theorem State.writeMem_runState (a : Addr) (b : Byte) : (s.writeMem a b).runState = s.runState := rfl
@[simp] theorem State.writeMem_errors (a : Addr) (b : Byte) : (s.writeMem a b).errors = s.errors := rfl
@[simp] theorem State.writeMem_draws (a : Addr) (b : Byte) : (s.writeMem a b).draws = s.draws := rfl

@[simp] theorem State.reportError_mem (e : StepError) : (s.reportError e).mem = s.mem := rfl
@[simp] theorem State.reportError_v (e : StepError) : (s.reportError e).v = s.v := rfl
@[simp] theorem State.reportError_i (e : StepError) : (s.reportError e).i = s.i := rfl
@[simp] theorem State.reportError_pc (e : StepError) : (s.reportError e).pc = s.pc := rfl
@[simp] theorem State.reportError_stack (e : StepError) : (s.reportError e).stack = s.stack := rfl
@[simp] theorem State.reportError_sp (e : StepError) : (s.reportError e).sp = s.sp := rfl
@[simp] theorem State.reportError_dt (e : StepError) : (s.reportError e).dt = s.dt := rfl
@[simp] theorem State.reportError_st (e : StepError) : (s.reportError e).st = s.st := rfl
@[simp] theorem State.reportError_fb (e : StepError) : (s.reportError e).fb = s.fb := rfl
@[simp] theorem State.reportError_key (e : StepError) : (s.reportError e).key = s.key := rfl
@[simp] theorem State.reportError_runState (e : StepError) : (s.reportError e).runState = s.runState := rfl
@[simp] theorem State.reportError_errors (e : StepError) : (s.reportError e).errors = e :: s.errors := rfl
@[simp] theorem State.reportError_draws (e : StepError) : (s.reportError e).draws = s.draws := rfl

@[simp] theorem State.takeError_mem (e : StepError) : (s.takeError e).mem = s.mem := rfl
@[simp] theorem State.takeError_v (e : StepError) : (s.takeError e).v = s.v := rfl
@[simp] theorem State.takeError_i (e : StepError) : (s.takeError e).i = s.i := rfl
@[simp] theorem State.takeError_pc (e : StepError) : (s.takeError e).pc = s.pc := rfl
@[simp] theorem State.takeError_stack (e : StepError) : (s.takeError e).stack = s.stack := rfl
@[simp] theorem State.takeError_sp (e : StepError) : (s.takeError e).sp = s.sp := rfl
@[simp] theorem State.takeError_dt (e : StepError) : (s.takeError e).dt = s.dt := rfl
@[simp] theorem State.takeError_st (e : StepError) : (s.takeError e).st = s.st := rfl
@[simp] theorem State.takeError_fb (e : StepError) : (s.takeError e).fb = s.fb := rfl
@[simp] theorem State.takeError_key (e : StepError) : (s.takeError e).key = s.key := rfl
@[simp] theorem State.takeError_runState (e : StepError) : (s.takeError e).runState = .finished := rfl
@[simp] theorem State.takeError_errors (e : StepError) : (s.takeError e).errors = e :: s.errors := rfl
@[simp] theorem State.takeError_draws (e : StepError) : (s.takeError e).draws = s.draws := rfl

@[simp] theorem State.advance_mem : (s.advance).mem = s.mem := rfl
@[simp] theorem State.advance_v : (s.advance).v = s.v := rfl
@[simp] theorem State.advance_i : (s.advance).i = s.i := rfl
@[simp] theorem State.advance_pc : (s.advance).pc = s.pc + 2 := rfl
@[simp] theorem State.advance_stack : (s.advance).stack = s.stack := rfl
@[simp] theorem State.advance_sp : (s.advance).sp = s.sp := rfl
@[simp] theorem State.advance_dt : (s.advance).dt = s.dt := rfl
@[simp] theorem State.advance_st : (s.advance).st = s.st := rfl
@[simp] theorem State.advance_fb : (s.advance).fb = s.fb := rfl
@[simp] theorem State.advance_key : (s.advance).key = s.key := rfl
@[simp] theorem State.advance_runState : (s.advance).runState = s.runState := rfl
@[simp] theorem State.advance_errors : (s.advance).errors = s.errors := rfl
@[simp] theorem State.advance_draws : (s.advance).draws = s.draws := rfl

@[simp] theorem State.setFlag_mem (b : Bool) : (s.setFlag b).mem = s.mem := rfl
@[simp] theorem State.setFlag_i (b : Bool) : (s.setFlag b).i = s.i := rfl
@[simp] theorem State.setFlag_pc (b : Bool) : (s.setFlag b).pc = s.pc := rfl
@[simp] theorem State.setFlag_stack (b : Bool) : (s.setFlag b).stack = s.stack := rfl
@[simp] theorem State.setFlag_sp (b : Bool) : (s.setFlag b).sp = s.sp := rfl
@[simp] theorem State.setFlag_dt (b : Bool) : (s.setFlag b).dt = s.dt := rfl
@[simp] theorem State.setFlag_st (b : Bool) : (s.setFlag b).st = s.st := rfl
@[simp] theorem State.setFlag_fb (b : Bool) : (s.setFlag b).fb = s.fb := rfl
@[simp] theorem State.setFlag_key (b : Bool) : (s.setFlag b).key = s.key := rfl
@[simp] theorem State.setFlag_runState (b : Bool) : (s.setFlag b).runState = s.runState := rfl
@[simp] theorem State.setFlag_errors (b : Bool) : (s.setFlag b).errors = s.errors := rfl
@[simp] theorem State.setFlag_draws (b : Bool) : (s.setFlag b).draws = s.draws := rfl

@[simp] theorem State.setResultThenFlag_mem (x : Reg) (b : Byte) (f : Bool) : (s.setResultThenFlag x b f).mem = s.mem := rfl
@[simp] theorem State.setResultThenFlag_i (x : Reg) (b : Byte) (f : Bool) : (s.setResultThenFlag x b f).i = s.i := rfl
@[simp] theorem State.setResultThenFlag_pc (x : Reg) (b : Byte) (f : Bool) : (s.setResultThenFlag x b f).pc = s.pc := rfl
@[simp] theorem State.setResultThenFlag_stack (x : Reg) (b : Byte) (f : Bool) : (s.setResultThenFlag x b f).stack = s.stack := rfl
@[simp] theorem State.setResultThenFlag_sp (x : Reg) (b : Byte) (f : Bool) : (s.setResultThenFlag x b f).sp = s.sp := rfl
@[simp] theorem State.setResultThenFlag_dt (x : Reg) (b : Byte) (f : Bool) : (s.setResultThenFlag x b f).dt = s.dt := rfl
@[simp] theorem State.setResultThenFlag_st (x : Reg) (b : Byte) (f : Bool) : (s.setResultThenFlag x b f).st = s.st := rfl
@[simp] theorem State.setResultThenFlag_fb (x : Reg) (b : Byte) (f : Bool) : (s.setResultThenFlag x b f).fb = s.fb := rfl
@[simp] theorem State.setResultThenFlag_key (x : Reg) (b : Byte) (f : Bool) : (s.setResultThenFlag x b f).key = s.key := rfl
@[simp] theorem State.setResultThenFlag_runState (x : Reg) (b : Byte) (f : Bool) : (s.setResultThenFlag x b f).runState = s.runState := rfl
@[simp] theorem State.setResultThenFlag_errors (x : Reg) (b : Byte) (f : Bool) : (s.setResultThenFlag x b f).errors = s.errors := rfl
@[simp] theorem State.setResultThenFlag_draws (x : Reg) (b : Byte) (f : Bool) : (s.setResultThenFlag x b f).draws = s.draws := rfl

@[simp] theorem State.draw8_mem : s.draw8.2.mem = s.mem := rfl
@[simp] theorem State.draw8_v : s.draw8.2.v = s.v := rfl
@[simp] theorem State.draw8_i : s.draw8.2.i = s.i := rfl
@[simp] theorem State.draw8_pc : s.draw8.2.pc = s.pc := rfl
@[simp] theorem State.draw8_stack : s.draw8.2.stack = s.stack := rfl
@[simp] theorem State.draw8_sp : s.draw8.2.sp = s.sp := rfl
@[simp] theorem State.draw8_dt : s.draw8.2.dt = s.dt := rfl
@[simp] theorem State.draw8_st : s.draw8.2.st = s.st := rfl
@[simp] theorem State.draw8_fb : s.draw8.2.fb = s.fb := rfl
@[simp] theorem State.draw8_key : s.draw8.2.key = s.key := rfl
@[simp] theorem State.draw8_runState : s.draw8.2.runState = s.runState := rfl
@[simp] theorem State.draw8_errors : s.draw8.2.errors = s.errors := rfl
@[simp] theorem State.draw8_draws : s.draw8.2.draws = s.draws + 1 := rfl

@[simp] theorem tickTimers_mem : (tickTimers s).mem = s.mem := rfl
@[simp] theorem tickTimers_v : (tickTimers s).v = s.v := rfl
@[simp] theorem tickTimers_i : (tickTimers s).i = s.i := rfl
@[simp] theorem tickTimers_pc : (tickTimers s).pc = s.pc := rfl
@[simp] theorem tickTimers_stack : (tickTimers s).stack = s.stack := rfl
@[simp] theorem tickTimers_sp : (tickTimers s).sp = s.sp := rfl
@[simp] theorem tickTimers_dt : (tickTimers s).dt = tickedTimer s.dt := rfl
@[simp] theorem tickTimers_st : (tickTimers s).st = tickedTimer s.st := rfl
@[simp] theorem tickTimers_fb : (tickTimers s).fb = s.fb := rfl
@[simp] theorem tickTimers_key : (tickTimers s).key = s.key := rfl
@[simp] theorem tickTimers_runState : (tickTimers s).runState = s.runState := rfl
@[simp] theorem tickTimers_errors : (tickTimers s).errors = s.errors := rfl
@[simp] theorem tickTimers_draws : (tickTimers s).draws = s.draws := rfl

@[simp] theorem State.skipIf_mem (c : Bool) : (s.skipIf c).mem = s.mem := by
  cases c <;> rfl
@[simp] theorem State.skipIf_v (c : Bool) : (s.skipIf c).v = s.v := by
  cases c <;> rfl
@[simp] theorem State.skipIf_i (c : Bool) : (s.skipIf c).i = s.i := by
  cases c <;> rfl
theorem State.skipIf_pc (c : Bool) : (s.skipIf c).pc = if c then s.pc + 2 else s.pc := by
  cases c <;> rfl
@[simp] theorem State.skipIf_stack (c : Bool) : (s.skipIf c).stack = s.stack := by
  cases c <;> rfl
@[simp] theorem State.skipIf_sp (c : Bool) : (s.skipIf c).sp = s.sp := by
  cases c <;> rfl
@[simp] theorem State.skipIf_dt (c : Bool) : (s.skipIf c).dt = s.dt := by
  cases c <;> rfl
@[simp] theorem State.skipIf_st (c : Bool) : (s.skipIf c).st = s.st := by
  cases c <;> rfl
@[simp] theorem State.skipIf_fb (c : Bool) : (s.skipIf c).fb = s.fb := by
  cases c <;> rfl
@[simp] theorem State.skipIf_key (c : Bool) : (s.skipIf c).key = s.key := by
  cases c <;> rfl
@[simp] theorem State.skipIf_runState (c : Bool) : (s.skipIf c).runState = s.runState := by
  cases c <;> rfl
@[simp] theorem State.skipIf_errors (c : Bool) : (s.skipIf c).errors = s.errors := by
  cases c <;> rfl
@[simp] theorem State.skipIf_draws (c : Bool) : (s.skipIf c).draws = s.draws := by
  cases c <;> rfl

/-! Registers, latches and bytes read after an update -/

theorem State.reg_eq_of_v {s t : State} (h : t.v = s.v) (r : Reg) : t.reg r = s.reg r := by
  simp [State.reg, h]

theorem State.readMem_eq_of_mem {s t : State} (h : t.mem = s.mem) (a : Addr) : t.readMem a = s.readMem a := by
  simp [State.readMem, h]

theorem State.reg_setReg (x r : Reg) (b : Byte) : (s.setReg x b).reg r = if r = x then b else s.reg r := by
  by_cases h : r = x
  · subst h
    simp [State.reg, State.setReg]
  · have hv : x.val ≠ r.val := fun e => h (Fin.ext e.symm)
    simp [State.reg, State.setReg, h, Vector.getElem_set_ne, hv]

@[simp] theorem State.reg_setReg_self (x : Reg) (b : Byte) : (s.setReg x b).reg x = b := by
  simp [State.reg_setReg]

@[simp] theorem State.reg_setReg_ne {x r : Reg} (b : Byte) (h : r ≠ x) : (s.setReg x b).reg r = s.reg r := by
  simp [State.reg_setReg, h]

theorem State.reg_setFlag (r : Reg) (f : Bool) :
    (s.setFlag f).reg r = if r = regVF then flagByte f else s.reg r :=
  State.reg_setReg s regVF r (flagByte f)

theorem State.reg_setResultThenFlag (x r : Reg) (b : Byte) (f : Bool) :
    (s.setResultThenFlag x b f).reg r =
      if r = regVF then flagByte f else if r = x then b else s.reg r := by
  simp [State.setResultThenFlag, State.reg_setFlag, State.reg_setReg]

theorem State.keyDown_setKeyLatch (k j : Fin 16) (p : Bool) :
    (s.setKeyLatch k p).keyDown j = if j = k then p else s.keyDown j := by
  by_cases h : j = k
  · subst h
    simp [State.keyDown, State.setKeyLatch]
  · have hv : k.val ≠ j.val := fun e => h (Fin.ext e.symm)
    simp [State.keyDown, State.setKeyLatch, h, Vector.getElem_set_ne, hv]

@[simp] theorem State.readMem_setReg (x : Reg) (b : Byte) (r : Addr) : (s.setReg x b).readMem r = s.readMem r :=
  State.readMem_eq_of_mem (rfl) r
@[simp] theorem State.reg_setI (w : Word) (r : Reg) : (s.setI w).reg r = s.reg r :=
  State.reg_eq_of_v (rfl) r
@[simp] theorem State.readMem_setI (w : Word) (r : Addr) : (s.setI w).readMem r = s.readMem r :=
  State.readMem_eq_of_mem (rfl) r
@[simp] theorem State.reg_setPc (w : Word) (r : Reg) : (s.setPc w).reg r = s.reg r :=
  State.reg_eq_of_v (rfl) r
@[simp] theorem State.readMem_setPc (w : Word) (r : Addr) : (s.setPc w).readMem r = s.readMem r :=
  State.readMem_eq_of_mem (rfl) r
@[simp] theorem State.reg_setDt (b : Byte) (r : Reg) : (s.setDt b).reg r = s.reg r :=
  State.reg_eq_of_v (rfl) r
@[simp] theorem State.readMem_setDt (b : Byte) (r : Addr) : (s.setDt b).readMem r = s.readMem r :=
  State.readMem_eq_of_mem (rfl) r
@[simp] theorem State.reg_setSt (b : Byte) (r : Reg) : (s.setSt b).reg r = s.reg r :=
  State.reg_eq_of_v (rfl) r
@[simp] theorem State.readMem_setSt (b : Byte) (r : Addr) : (s.setSt b).readMem r = s.readMem r :=
  State.readMem_eq_of_mem (rfl) r
@[simp] theorem State.reg_setFb (f : FrameBuffer) (r : Reg) : (s.setFb f).reg r = s.reg r :=
  State.reg_eq_of_v (rfl) r
@[simp] theorem State.readMem_setFb (f : FrameBuffer) (r : Addr) : (s.setFb f).readMem r = s.readMem r :=
  State.readMem_eq_of_mem (rfl) r
@[simp] theorem State.reg_setKeyLatch (k : Fin 16) (p : Bool) (r : Reg) : (s.setKeyLatch k p).reg r = s.reg r :=
  State.reg_eq_of_v (rfl) r
@[simp] theorem State.readMem_setKeyLatch (k : Fin 16) (p : Bool) (r : Addr) : (s.setKeyLatch k p).readMem r = s.readMem r :=
  State.readMem_eq_of_mem (rfl) r
@[simp] theorem State.reg_writeMem (a : Addr) (b : Byte) (r : Reg) : (s.writeMem a b).reg r = s.reg r :=
  State.reg_eq_of_v (rfl) r
@[simp] theorem State.reg_reportError (e : StepError) (r : Reg) : (s.reportError e).reg r = s.reg r :=
  State.reg_eq_of_v (rfl) r
@[simp] theorem State.readMem_reportError (e : StepError) (r : Addr) : (s.reportError e).readMem r = s.readMem r :=
  State.readMem_eq_of_mem (rfl) r
@[simp] theorem State.reg_takeError (e : StepError) (r : Reg) : (s.takeError e).reg r = s.reg r :=
  State.reg_eq_of_v (rfl) r
@[simp] theorem State.readMem_takeError (e : StepError) (r : Addr) : (s.takeError e).readMem r = s.readMem r :=
  State.readMem_eq_of_mem (rfl) r
@[simp] theorem State.reg_advance (r : Reg) : (s.advance).reg r = s.reg r :=
  State.reg_eq_of_v (rfl) r
@[simp] theorem State.readMem_advance (r : Addr) : (s.advance).readMem r = s.readMem r :=
  State.readMem_eq_of_mem (rfl) r
@[simp] theorem State.readMem_setFlag (b : Bool) (r : Addr) : (s.setFlag b).readMem r = s.readMem r :=
  State.readMem_eq_of_mem (rfl) r
@[simp] theorem State.readMem_setResultThenFlag (x : Reg) (b : Byte) (f : Bool) (r : Addr) : (s.setResultThenFlag x b f).readMem r = s.readMem r :=
  State.readMem_eq_of_mem (rfl) r
@[simp] theorem State.reg_skipIf (c : Bool) (r : Reg) : (s.skipIf c).reg r = s.reg r :=
  State.reg_eq_of_v (State.skipIf_v s c) r
@[simp] theorem State.readMem_skipIf (c : Bool) (r : Addr) : (s.skipIf c).readMem r = s.readMem r :=
  State.readMem_eq_of_mem (State.skipIf_mem s c) r
@[simp] theorem State.reg_draw8 (r : Reg) : s.draw8.2.reg r = s.reg r := State.reg_eq_of_v rfl r
@[simp] theorem State.readMem_draw8 (a : Addr) : s.draw8.2.readMem a = s.readMem a := State.readMem_eq_of_mem rfl a

end Sys2Proof.Machine
end

