-- ==== Sys2Proof/Laws/Memory.lean ====
section
/-! SUPPORT. Memory: a read after a write, the canonical form, and that every memory operation keeps it. -/

namespace Sys2Proof.Machine

/-! The canonical form -/

theorem Memory.wfAbove_cons (lo : Option Nat) (c : Nat) (b : Byte) (m : Memory) :
    Memory.wfAbove lo ((c, b) :: m) = true ↔
      (∀ l, lo = some l → l < c) ∧ c < 4096 ∧ b ≠ resetByte c ∧ Memory.wfAbove (some c) m = true := by
  cases lo <;> simp [Memory.wfAbove, and_assoc]

theorem Memory.wfAbove_weaken {lo : Option Nat} {c : Nat} {m : Memory} (h : Memory.wfAbove (some c) m = true)
    (hlo : ∀ l, lo = some l → l ≤ c) : Memory.wfAbove lo m = true := by
  cases m with
  | nil => rfl
  | cons d m =>
    obtain ⟨d, b⟩ := d
    rw [Memory.wfAbove_cons] at h ⊢
    exact ⟨fun l hl => lt_of_le_of_lt (hlo l hl) (h.1 c rfl), h.2⟩

theorem Memory.wfAbove_consCell {lo : Option Nat} {a : Nat} {m : Memory} (b : Byte) (ha : a < 4096)
    (hlo : ∀ l, lo = some l → l < a) (hm : Memory.wfAbove (some a) m = true) :
    Memory.wfAbove lo (Memory.consCell a b m) = true := by
  unfold Memory.consCell
  split
  · exact Memory.wfAbove_weaken hm fun l hl => (hlo l hl).le
  · next hb => exact (Memory.wfAbove_cons lo a b m).2 ⟨hlo, ha, hb, hm⟩

/-- A write below 4096 keeps the canonical form. -/
theorem Memory.writeAt_wfAbove {a : Nat} (b : Byte) (ha : a < 4096) :
    ∀ {m : Memory} {lo : Option Nat}, Memory.wfAbove lo m = true → (∀ l, lo = some l → l < a) →
      Memory.wfAbove lo (Memory.writeAt m a b) = true
  | [], _, _, hlo => Memory.wfAbove_consCell b ha hlo rfl
  | (c, d) :: m, lo, hm, hlo => by
    have hc := (Memory.wfAbove_cons lo c d m).1 hm
    unfold Memory.writeAt
    split
    · next h =>
      exact Memory.wfAbove_consCell b ha hlo
        ((Memory.wfAbove_cons _ c d m).2 ⟨by simpa using h, hc.2⟩)
    · split
      · next h => exact Memory.wfAbove_consCell b ha hlo (h ▸ hc.2.2.2)
      · next h1 h2 =>
        exact (Memory.wfAbove_cons lo c d _).2 ⟨hc.1, hc.2.1, hc.2.2.1,
          Memory.writeAt_wfAbove b ha hc.2.2.2 (by simp; omega)⟩

theorem Memory.writeAt_wf {m : Memory} {a : Nat} (b : Byte) (ha : a < 4096) (hm : Memory.wf m = true) :
    Memory.wf (Memory.writeAt m a b) = true :=
  Memory.writeAt_wfAbove b ha hm (by simp)

theorem Memory.wf_nil : Memory.wf [] = true := rfl

theorem State.reset_mem_wf : Memory.wf State.reset.mem = true := rfl

/-! Reading -/

theorem Memory.readAt_below {m : Memory} {c a : Nat} (h : Memory.wfAbove (some c) m = true) (ha : a ≤ c) :
    Memory.readAt m a = resetByte a := by
  induction m generalizing c with
  | nil => rfl
  | cons d m ih =>
    obtain ⟨d, b⟩ := d
    obtain ⟨hd, -, -, hm⟩ := (Memory.wfAbove_cons _ d b m).1 h
    have hcd := hd c rfl
    have hne : a ≠ d := by omega
    simp only [Memory.readAt, hne, if_false]
    exact ih hm (by omega)

theorem Memory.readAt_consCell {a : Nat} {m : Memory} (b : Byte) (hm : Memory.wfAbove (some a) m = true) (c : Nat) :
    Memory.readAt (Memory.consCell a b m) c = if c = a then b else Memory.readAt m c := by
  unfold Memory.consCell
  split
  · next hb =>
    split
    · next h => rw [h, hb, Memory.readAt_below hm (le_refl a)]
    · rfl
  · rfl

/-- A read after a write in canonical memory: the written byte at its address, and every other byte as before. -/
theorem Memory.readAt_writeAt {a : Nat} (b : Byte) (c : Nat) :
    ∀ {m : Memory} {lo : Option Nat}, Memory.wfAbove lo m = true →
      Memory.readAt (Memory.writeAt m a b) c = if c = a then b else Memory.readAt m c
  | [], _, _ => Memory.readAt_consCell b rfl c
  | (d, e) :: m, lo, hm => by
    have hd := (Memory.wfAbove_cons lo d e m).1 hm
    unfold Memory.writeAt
    split
    · next h =>
      exact Memory.readAt_consCell b ((Memory.wfAbove_cons _ d e m).2 ⟨by simpa using h, hd.2⟩) c
    · split
      · next h =>
        subst h
        rw [Memory.readAt_consCell b hd.2.2.2]
        by_cases hc : c = a <;> simp [hc, Memory.readAt]
      · next h1 h2 =>
        by_cases hc : c = d
        · have hne : c ≠ a := by omega
          simp [Memory.readAt, hc, hc ▸ hne]
        · simp only [Memory.readAt, hc, if_false]
          exact Memory.readAt_writeAt b c hd.2.2.2

/-- Canonical memories that hold the same bytes are the same list. -/
theorem Memory.ext_of_wfAbove : ∀ {m n : Memory} {lo : Option Nat}, Memory.wfAbove lo m = true →
    Memory.wfAbove lo n = true → (∀ a, Memory.readAt m a = Memory.readAt n a) → m = n
  | [], [], _, _, _, _ => rfl
  | [], (c, b) :: n, lo, _, hn, h => by
    have hc := (Memory.wfAbove_cons lo c b n).1 hn
    exact absurd (by simpa [Memory.readAt] using (h c).symm) hc.2.2.1
  | (c, b) :: m, [], lo, hm, _, h => by
    have hc := (Memory.wfAbove_cons lo c b m).1 hm
    exact absurd (by simpa [Memory.readAt] using h c) hc.2.2.1
  | (c, b) :: m, (d, e) :: n, lo, hm, hn, h => by
    have hc := (Memory.wfAbove_cons lo c b m).1 hm
    have hd := (Memory.wfAbove_cons lo d e n).1 hn
    have hcd : c = d := by
      rcases Nat.lt_trichotomy c d with hlt | heq | hgt
      · refine absurd ?_ hc.2.2.1
        have hne : c ≠ d := by omega
        simpa [Memory.readAt, hne, Memory.readAt_below hd.2.2.2 hlt.le] using h c
      · exact heq
      · refine absurd ?_ hd.2.2.1
        have hne : d ≠ c := by omega
        simpa [Memory.readAt, hne, Memory.readAt_below hc.2.2.2 hgt.le] using (h d).symm
    subst hcd
    have hbe : b = e := by simpa [Memory.readAt] using h c
    subst hbe
    refine congrArg _ (Memory.ext_of_wfAbove hc.2.2.2 hd.2.2.2 fun a => ?_)
    by_cases ha : a = c
    · rw [Memory.readAt_below hc.2.2.2 ha.le, Memory.readAt_below hd.2.2.2 ha.le]
    · simpa [Memory.readAt, ha] using h a

theorem Memory.ext_of_wf {m n : Memory} (hm : Memory.wf m = true) (hn : Memory.wf n = true)
    (h : ∀ a, Memory.readAt m a = Memory.readAt n a) : m = n :=
  Memory.ext_of_wfAbove hm hn h

/-! The operations of the state -/

theorem State.writeMem_wf {s : State} (a : Addr) (b : Byte) (h : Memory.wf s.mem = true) :
    Memory.wf (s.writeMem a b).mem = true :=
  Memory.writeAt_wf b a.isLt h

theorem State.readMem_writeMem {s : State} (h : Memory.wf s.mem = true) (a c : Addr) (b : Byte) :
    (s.writeMem a b).readMem c = if c = a then b else s.readMem c := by
  have key := Memory.readAt_writeAt (a := a.toNat) b c.toNat (m := s.mem) (lo := none) h
  simpa [State.readMem, State.writeMem, BitVec.toNat_inj] using key

/-- `writeBytes` keeps the canonical form. -/
theorem State.writeBytes_wf : ∀ (bs : List Byte) {s : State} (a : Word), Memory.wf s.mem = true →
    Memory.wf (s.writeBytes a bs).mem = true
  | [], _, _, h => h
  | _ :: bs, _, a, h => State.writeBytes_wf bs (a + 1) (State.writeMem_wf (ea a) _ h)

/-- `writeBytes` changes memory alone. -/
theorem State.writeBytes_eq : ∀ (bs : List Byte) (s : State) (a : Word),
    s.writeBytes a bs = { s with mem := (s.writeBytes a bs).mem }
  | [], _, _ => rfl
  | b :: bs, s, a => by
    rw [State.writeBytes, State.writeBytes_eq bs (s.writeMem (ea a) b) (a + 1)]
    rfl

section
variable (s : State) (a : Word) (bs : List Byte)
@[simp] theorem State.writeBytes_v : (s.writeBytes a bs).v = s.v := by rw [State.writeBytes_eq]
@[simp] theorem State.writeBytes_i : (s.writeBytes a bs).i = s.i := by rw [State.writeBytes_eq]
@[simp] theorem State.writeBytes_pc : (s.writeBytes a bs).pc = s.pc := by rw [State.writeBytes_eq]
@[simp] theorem State.writeBytes_stack : (s.writeBytes a bs).stack = s.stack := by rw [State.writeBytes_eq]
@[simp] theorem State.writeBytes_sp : (s.writeBytes a bs).sp = s.sp := by rw [State.writeBytes_eq]
@[simp] theorem State.writeBytes_dt : (s.writeBytes a bs).dt = s.dt := by rw [State.writeBytes_eq]
@[simp] theorem State.writeBytes_st : (s.writeBytes a bs).st = s.st := by rw [State.writeBytes_eq]
@[simp] theorem State.writeBytes_fb : (s.writeBytes a bs).fb = s.fb := by rw [State.writeBytes_eq]
@[simp] theorem State.writeBytes_key : (s.writeBytes a bs).key = s.key := by rw [State.writeBytes_eq]
@[simp] theorem State.writeBytes_runState : (s.writeBytes a bs).runState = s.runState := by rw [State.writeBytes_eq]
@[simp] theorem State.writeBytes_errors : (s.writeBytes a bs).errors = s.errors := by rw [State.writeBytes_eq]
@[simp] theorem State.writeBytes_draws : (s.writeBytes a bs).draws = s.draws := by rw [State.writeBytes_eq]
@[simp] theorem State.reg_writeBytes (r : Reg) : (s.writeBytes a bs).reg r = s.reg r :=
  State.reg_eq_of_v (State.writeBytes_v s a bs) r
end

theorem add_ofNat_succ (a : Word) (k : Nat) : a + BitVec.ofNat 16 (k + 1) = a + 1 + BitVec.ofNat 16 k := by
  rw [BitVec.ofNat_add, BitVec.add_comm (BitVec.ofNat 16 k), ← BitVec.add_assoc]
  rfl

/-- `writeBytes` leaves every byte alone but those at `ea(a + k)`. -/
theorem State.readMem_writeBytes_of_notMem : ∀ (bs : List Byte) {s : State} (a : Word) (c : Addr),
    Memory.wf s.mem = true → (∀ k < bs.length, c ≠ ea (a + BitVec.ofNat 16 k)) →
    (s.writeBytes a bs).readMem c = s.readMem c
  | [], _, _, _, _, _ => rfl
  | b :: bs, s, a, c, h, hc => by
    rw [State.writeBytes, State.readMem_writeBytes_of_notMem bs (a + 1) c (State.writeMem_wf _ _ h), State.readMem_writeMem h]
    · have h0 := hc 0 (by simp)
      simp only [BitVec.add_zero] at h0
      simp [h0]
    · intro k hk
      have := hc (k + 1) (by simpa using hk)
      rwa [add_ofNat_succ] at this

theorem ea_toNat (a : Word) : (ea a).toNat = a.toNat % 4096 := by simp [ea]

/-- The pointers `a + j` and `a + k` select different bytes when `j` and `k` differ by less than the size of memory. -/
theorem ea_add_ne {a : Word} {j k : Nat} (hjk : j < k) (hk : k < j + 4096) (_ : k < 65536) :
    ea (a + BitVec.ofNat 16 j) ≠ ea (a + BitVec.ofNat 16 k) := by
  intro h
  have := congrArg BitVec.toNat h
  simp only [ea_toNat, BitVec.toNat_add, BitVec.toNat_ofNat] at this
  omega

/-- What `writeBytes` stores: the `k`-th byte at `ea(a + k)`, for as many bytes as memory holds. -/
theorem State.readMem_writeBytes : ∀ (bs : List Byte) {s : State} (a : Word) (k : Nat) (hk : k < bs.length),
    bs.length ≤ 4096 → Memory.wf s.mem = true →
    (s.writeBytes a bs).readMem (ea (a + BitVec.ofNat 16 k)) = bs[k]
  | b :: bs, s, a, 0, _, hlen, h => by
    rw [State.writeBytes, State.readMem_writeBytes_of_notMem _ _ _ (State.writeMem_wf _ _ h), State.readMem_writeMem h]
    · simp
    · intro k hk
      have := ea_add_ne (a := a) (j := 0) (k := k + 1) (by omega) (by simp at hlen; omega) (by simp at hlen; omega)
      rwa [add_ofNat_succ] at this
  | b :: bs, s, a, k + 1, hk, hlen, h => by
    rw [State.writeBytes, add_ofNat_succ,
      State.readMem_writeBytes bs (a + 1) k (by simpa using hk) (by simp at hlen; omega) (State.writeMem_wf _ _ h)]
    rfl

theorem State.readBytes_length (s : State) (a : Word) (n : Nat) : (s.readBytes a n).length = n := by
  induction n generalizing a with
  | zero => rfl
  | succ n ih => simp [State.readBytes, ih]

/-- What `readBytes` reads: its `k`-th byte is the one at `ea(a + k)`. -/
theorem State.readBytes_getElem (s : State) (a : Word) (n k : Nat) (hk : k < (s.readBytes a n).length) :
    (s.readBytes a n)[k] = s.readMem (ea (a + BitVec.ofNat 16 k)) := by
  induction n generalizing a k with
  | zero => simp [State.readBytes] at hk
  | succ n ih =>
    cases k with
    | zero => simp [State.readBytes]
    | succ k =>
      simp only [State.readBytes, List.getElem_cons_succ]
      rw [ih, add_ofNat_succ]

theorem State.readBytes_eq_of_mem {s t : State} (h : t.mem = s.mem) (a : Word) (n : Nat) :
    t.readBytes a n = s.readBytes a n := by
  induction n generalizing a with
  | zero => rfl
  | succ n ih => simp [State.readBytes, ih, State.readMem_eq_of_mem h]

end Sys2Proof.Machine
end

