-- ==== Sys2Proof/Laws/Ops.lean ====
section
/-! SUPPORT. What each shared operation can do, once: the stack, the skip, the keypad, register blocks, the error path,
and the frames of all of them. -/

namespace Sys2Proof.Machine

/-! The call stack -/

/-- A push with a free slot: the value in slot `sp`, `sp` one more, nothing else. -/
theorem State.push_of_lt {s : State} (value : Word) (h : s.sp.val < 16) :
    s.push value =
      some { s with stack := s.stack.set s.sp.val value h, sp := ⟨s.sp.val + 1, Nat.succ_lt_succ h⟩ } :=
  dif_pos h

theorem State.push_of_full {s : State} (value : Word) (h : s.sp.val = 16) : s.push value = none := by
  simp [State.push, h]

/-- A pop with a pending call: the value of slot `sp - 1`, `sp` one less, nothing else. -/
theorem State.pop_of_pos {s : State} (h : 0 < s.sp.val) :
    s.pop = some (s.stack[s.sp.val - 1]'(by have := s.sp.isLt; omega),
      { s with sp := ⟨s.sp.val - 1, by have := s.sp.isLt; omega⟩ }) :=
  dif_pos h

theorem State.pop_of_empty {s : State} (h : s.sp.val = 0) : s.pop = none := by
  simp [State.pop, h]

/-! The keypad -/

theorem mem_allRegs (r : Reg) : r ∈ allRegs := by
  revert r; decide

/-- `lowestKey` answers a key iff some key is down. -/
theorem State.lowestKey_eq_none {s : State} : s.lowestKey = none ↔ ∀ k : Fin 16, s.keyDown k = false := by
  simp [State.lowestKey, List.find?_eq_none, mem_allRegs]

/-- The key `lowestKey` answers is down, and no lower one is. -/
theorem State.lowestKey_eq_some {s : State} {k : Fin 16} (h : s.lowestKey = some k) :
    s.keyDown k = true ∧ ∀ j : Fin 16, j < k → s.keyDown j = false := by
  obtain ⟨hk, as, bs, hsplit, has⟩ := List.find?_eq_some_iff_append.1 h
  refine ⟨hk, fun j hj => ?_⟩
  have hsorted : allRegs.Pairwise (· < ·) := by decide
  rw [hsplit, List.pairwise_append] at hsorted
  have hmem : j ∈ as ++ k :: bs := hsplit ▸ mem_allRegs j
  rcases List.mem_append.1 hmem with hja | hjb
  · simpa using has j hja
  · rcases List.mem_cons.1 hjb with rfl | hjb
    · exact absurd hj (lt_irrefl _)
    · exact absurd hj (not_lt.2 ((List.pairwise_cons.1 hsorted.2.1).1 j hjb).le)

/-! Blocks of registers -/

theorem regsUpTo_length (x : Reg) : (regsUpTo x).length = x.val + 1 := by
  revert x; decide

/-- The registers up to `x`, by position: the `k`-th is `V[k]`. -/
theorem regsUpTo_getElem (x : Reg) (k : Nat) (hk : k < (regsUpTo x).length) :
    (regsUpTo x)[k] = ⟨k, by rw [regsUpTo_length] at hk; omega⟩ := by
  have all : ∀ x k : Reg, k ≤ x → (regsUpTo x)[k.val]? = some k := by decide
  have hkx : k < x.val + 1 := regsUpTo_length x ▸ hk
  have h := all x ⟨k, by omega⟩ (by simp [Fin.le_def]; omega)
  rw [List.getElem?_eq_getElem hk] at h
  exact Option.some.inj h

theorem mem_regsUpTo {x r : Reg} : r ∈ regsUpTo x ↔ r ≤ x := by
  revert x r; decide

theorem regsUpTo_nodup (x : Reg) : (regsUpTo x).Nodup := by
  revert x; decide

/-- `setRegs` changes registers alone. -/
theorem State.setRegs_eq : ∀ (rs : List Reg) (bs : List Byte) (s : State),
    s.setRegs rs bs = { s with v := (s.setRegs rs bs).v }
  | [], _, _ => rfl
  | _ :: _, [], _ => rfl
  | r :: rs, b :: bs, s => by
    rw [State.setRegs, State.setRegs_eq rs bs (s.setReg r b)]
    rfl

/-- A register not among those loaded keeps its value. -/
theorem State.reg_setRegs_of_notMem {r : Reg} : ∀ (rs : List Reg) (bs : List Byte) (s : State), r ∉ rs →
    (s.setRegs rs bs).reg r = s.reg r
  | [], _, _, _ => rfl
  | _ :: _, [], _, _ => rfl
  | q :: rs, b :: bs, s, h => by
    rw [List.mem_cons, not_or] at h
    rw [State.setRegs, State.reg_setRegs_of_notMem rs bs _ h.2, State.reg_setReg_ne s b h.1]

/-- Each register loaded holds its byte, when no register is loaded twice. -/
theorem State.reg_setRegs : ∀ (rs : List Reg) (bs : List Byte) (s : State) (k : Nat) (hr : k < rs.length)
    (hb : k < bs.length), rs.Nodup → (s.setRegs rs bs).reg rs[k] = bs[k]
  | q :: rs, b :: bs, s, 0, _, _, h => by
    rw [State.setRegs, List.getElem_cons_zero, State.reg_setRegs_of_notMem rs bs _ (List.nodup_cons.1 h).1]
    simp
  | q :: rs, b :: bs, s, k + 1, hr, hb, h => by
    simp only [State.setRegs, List.getElem_cons_succ]
    exact State.reg_setRegs rs bs _ k (by simpa using hr) (by simpa using hb) (List.nodup_cons.1 h).2

/-! Frames -/

/-- Changing nothing is within every frame. -/
theorem Frame.refl (w : Writes) (s : State) : Frame w s s :=
  ⟨fun _ _ => rfl, fun _ _ => rfl, fun _ => rfl, fun _ => rfl, fun _ => ⟨rfl, rfl⟩, fun _ => rfl, fun _ => rfl,
    fun _ => rfl, fun _ => rfl, fun _ => ⟨rfl, rfl⟩, rfl⟩

theorem frame_setReg (s : State) (x : Reg) (b : Byte) : Frame { regs := [x] } s (s.setReg x b) :=
  { Frame.refl {} s with regs := fun _ h => State.reg_setReg_ne s b (by simpa using h) }

theorem frame_setResultThenFlag (s : State) (x : Reg) (b : Byte) (f : Bool) :
    Frame { regs := [x, regVF] } s (s.setResultThenFlag x b f) :=
  { Frame.refl {} s with
    regs := fun r h => by
      simp only [List.mem_cons, List.not_mem_nil, or_false, not_or] at h
      simp [State.reg_setResultThenFlag, h] }

theorem frame_setI (s : State) (w : Word) : Frame { index := true } s (s.setI w) :=
  { Frame.refl { index := true } s with index := by simp }

theorem frame_setPc (s : State) (w : Word) : Frame { pc := true } s (s.setPc w) :=
  { Frame.refl { pc := true } s with pc := by simp }

theorem frame_skipIf (s : State) (c : Bool) : Frame { pc := true } s (s.skipIf c) := by
  cases c
  · exact Frame.refl _ s
  · exact frame_setPc s _

theorem frame_setDt (s : State) (b : Byte) : Frame { delay := true } s (s.setDt b) :=
  { Frame.refl { delay := true } s with delay := by simp }

theorem frame_setSt (s : State) (b : Byte) : Frame { sound := true } s (s.setSt b) :=
  { Frame.refl { sound := true } s with sound := by simp }

theorem frame_setFb (s : State) (f : FrameBuffer) : Frame { display := true } s (s.setFb f) :=
  { Frame.refl { display := true } s with display := by simp }

theorem frame_takeError (s : State) (e : StepError) : Frame { run := true } s (s.takeError e) :=
  { Frame.refl { run := true } s with run := by simp }

theorem frame_writeBytes (s : State) (a : Word) (bs : List Byte) (h : Memory.wf s.mem = true) :
    Frame { stored := touched a bs.length } s (s.writeBytes a bs) where
  regs _ _ := State.reg_writeBytes s a bs _
  memory c hc := by
    refine State.readMem_writeBytes_of_notMem bs a c h fun k hk e => hc ?_
    simp only [touched, List.mem_map, List.mem_range]
    exact ⟨k, hk, e.symm⟩
  index _ := by simp
  pc _ := by simp
  stack _ := by simp
  delay _ := by simp
  sound _ := by simp
  display _ := by simp
  draws _ := by simp
  run _ := by simp
  keys := by simp

theorem frame_setRegs (s : State) (rs : List Reg) (bs : List Byte) : Frame { regs := rs } s (s.setRegs rs bs) := by
  have h := State.setRegs_eq rs bs s
  exact {
    regs := fun r hr => State.reg_setRegs_of_notMem rs bs s hr
    memory := fun a _ => State.readMem_eq_of_mem (by rw [h]) a
    index := fun _ => by rw [h]
    pc := fun _ => by rw [h]
    stack := fun _ => by rw [h]; exact ⟨rfl, rfl⟩
    delay := fun _ => by rw [h]
    sound := fun _ => by rw [h]
    display := fun _ => by rw [h]
    draws := fun _ => by rw [h]
    run := fun _ => by rw [h]; exact ⟨rfl, rfl⟩
    keys := by rw [h] }

end Sys2Proof.Machine
end

