-- ==== Sys2Proof/Laws/Display.lean ====
section
/-! SUPPORT. The blit in closed form: which pixels it inverts and when it collides (spec/44_display.md R151 to R153). -/

namespace Sys2Proof.Machine

/-- The pixels of a sprite row at `(x, y)` with the sprite bit that meets each. -/
def rowPixels (x y : Nat) (b : Byte) : List (Fin 2048 × Bool) :=
  spriteColumns.map fun col => (pixelIndex (x + col) y, b.getLsbD (7 - col))

/-- The pixels of a sprite at `(x, y)` with the sprite bit that meets each. -/
def spritePixels (x y : Nat) : List Byte → List (Fin 2048 × Bool)
  | [] => []
  | b :: bs => rowPixels x y b ++ spritePixels x (y + 1) bs

/-- A blit over a list of pixels. -/
def Blit.pixels (acc : Blit) (ps : List (Fin 2048 × Bool)) : Blit := ps.foldl (fun a p => a.pixel p.1 p.2) acc

theorem Blit.row_eq_pixels (acc : Blit) (x y : Nat) (b : Byte) : acc.row x y b = acc.pixels (rowPixels x y b) := by
  simp [Blit.row, Blit.pixels, rowPixels, List.foldl_map]

theorem Blit.rows_eq_pixels : ∀ (bs : List Byte) (acc : Blit) (x y : Nat),
    acc.rows x y bs = acc.pixels (spritePixels x y bs)
  | [], _, _, _ => rfl
  | b :: bs, acc, x, y => by
    rw [Blit.rows, Blit.rows_eq_pixels bs, Blit.row_eq_pixels]
    simp [Blit.pixels, spritePixels, List.foldl_append]

theorem Blit.pixel_fb (acc : Blit) (k j : Fin 2048) (bit : Bool) :
    (acc.pixel k bit).fb[j.val] = (acc.fb[j.val] ^^ (decide (k = j) && bit)) := by
  by_cases h : k = j
  · subst h
    simp [Blit.pixel]
  · have hv : k.val ≠ j.val := fun e => h (Fin.ext e)
    simp [Blit.pixel, Vector.getElem_set_ne, hv, h]

/-- A blit over distinct pixels: each is inverted where its sprite bit is 1, and it collides where such a pixel was on
before the blit. -/
theorem Blit.pixels_spec : ∀ (ps : List (Fin 2048 × Bool)) (acc : Blit), (ps.map Prod.fst).Nodup →
    (∀ j : Fin 2048, (acc.pixels ps).fb[j.val] = (acc.fb[j.val] ^^ ps.any fun p => decide (p.1 = j) && p.2)) ∧
      (acc.pixels ps).collided = (acc.collided || ps.any fun p => p.2 && acc.fb[p.1.val])
  | [], acc, _ => by simp [Blit.pixels]
  | (k, bit) :: ps, acc, h => by
    simp only [List.map_cons, List.nodup_cons] at h
    obtain ⟨hfb, hcol⟩ := Blit.pixels_spec ps (acc.pixel k bit) h.2
    have hk : ∀ p ∈ ps, p.1 ≠ k := fun p hp e => h.1 (e ▸ List.mem_map_of_mem hp)
    refine ⟨fun j => ?_, ?_⟩
    · rw [show acc.pixels ((k, bit) :: ps) = (acc.pixel k bit).pixels ps from rfl, hfb, Blit.pixel_fb, List.any_cons]
      by_cases hj : k = j
      · subst hj
        have hnone : ps.any (fun p => decide (p.1 = k) && p.2) = false := by
          rw [List.any_eq_false]
          intro p hp
          simp [hk p hp]
        simp [hnone]
      · simp [hj]
    · rw [show acc.pixels ((k, bit) :: ps) = (acc.pixel k bit).pixels ps from rfl, hcol, List.any_cons]
      have hsame : ps.any (fun p => p.2 && (acc.pixel k bit).fb[p.1.val]) = ps.any fun p => p.2 && acc.fb[p.1.val] := by
        rw [Bool.eq_iff_iff, List.any_eq_true, List.any_eq_true]
        refine exists_congr fun p => and_congr_right fun hp => ?_
        rw [Blit.pixel_fb, decide_eq_false (Ne.symm (hk p hp))]
        simp
      rw [hsame]
      simp [Blit.pixel, Bool.or_assoc]

/-! Which pixels a sprite meets -/

theorem mem_rowPixels {x y : Nat} {b : Byte} {p : Fin 2048 × Bool} :
    p ∈ rowPixels x y b ↔ ∃ col < 8, p = (pixelIndex (x + col) y, b.getLsbD (7 - col)) := by
  have hcols : ∀ col, col ∈ spriteColumns ↔ col < 8 := by
    intro col
    simp only [spriteColumns, List.mem_cons, List.not_mem_nil, or_false]
    omega
  simp [rowPixels, hcols, eq_comm]

theorem mem_spritePixels {p : Fin 2048 × Bool} : ∀ {bs : List Byte} {x y : Nat},
    p ∈ spritePixels x y bs ↔ ∃ row : Nat, ∃ h : row < bs.length, ∃ col < 8,
      p = (pixelIndex (x + col) (y + row), bs[row].getLsbD (7 - col))
  | [], _, _ => by simp [spritePixels]
  | b :: bs, x, y => by
    rw [spritePixels, List.mem_append, mem_rowPixels, mem_spritePixels]
    constructor
    · rintro (⟨col, hc, rfl⟩ | ⟨row, hr, col, hc, rfl⟩)
      · exact ⟨0, by simp, col, hc, by simp⟩
      · exact ⟨row + 1, by simpa using hr, col, hc, by simp [Nat.add_assoc, Nat.add_comm 1 row]⟩
    · rintro ⟨_ | row, hr, col, hc, rfl⟩
      · exact .inl ⟨col, hc, by simp⟩
      · exact .inr ⟨row, by simpa using hr, col, hc, by simp [Nat.add_assoc, Nat.add_comm 1 row]⟩

theorem pixelIndex_inj {x y r c r' c' : Nat} (hc : c < 8) (hc' : c' < 8) (hr : r < 32) (hr' : r' < 32)
    (h : pixelIndex (x + c) (y + r) = pixelIndex (x + c') (y + r')) : c = c' ∧ r = r' := by
  have := congrArg Fin.val h
  simp only [pixelIndex] at this
  omega

theorem rowPixels_nodup (x y : Nat) (b : Byte) : ((rowPixels x y b).map Prod.fst).Nodup := by
  rw [rowPixels, List.map_map, List.nodup_map_iff_inj_on (by decide)]
  intro c hc c' hc' h
  have h8 : ∀ c ∈ spriteColumns, c < 8 := by decide
  exact (pixelIndex_inj (x := x) (y := y) (r := 0) (r' := 0) (h8 c hc) (h8 c' hc') (by omega) (by omega) h).1

/-- A sprite of at most 32 rows never overlaps itself (R152 (e)). -/
theorem spritePixels_nodup : ∀ (bs : List Byte) (x y : Nat), bs.length ≤ 32 →
    ((spritePixels x y bs).map Prod.fst).Nodup
  | [], _, _, _ => by simp [spritePixels]
  | b :: bs, x, y, h => by
    rw [spritePixels, List.map_append, List.nodup_append]
    refine ⟨rowPixels_nodup x y b, spritePixels_nodup bs x (y + 1) (by simp at h; omega), ?_⟩
    intro k hk k' hk' e
    subst e
    obtain ⟨p, hp, rfl⟩ := List.mem_map.1 hk
    obtain ⟨q, hq, hqp⟩ := List.mem_map.1 hk'
    obtain ⟨c, hc, rfl⟩ := mem_rowPixels.1 hp
    obtain ⟨r, hr, c', hc', rfl⟩ := mem_spritePixels.1 hq
    have := pixelIndex_inj (x := x) (y := y) (r := r + 1) (r' := 0) hc' hc (by simp at h; omega) (by omega)
      (by simpa [Nat.add_assoc, Nat.add_comm 1 r] using hqp)
    omega

/-- The pixels a sprite's 1 bits meet: pixel `j` lies under a 1 bit of row `row`, column `col`. -/
theorem blitSprite_spec (fb : FrameBuffer) (x y : Nat) (bs : List Byte) (h : bs.length ≤ 32) :
    (∀ j : Fin 2048, (blitSprite fb x y bs).fb[j.val] =
      (fb[j.val] ^^ (spritePixels x y bs).any fun p => decide (p.1 = j) && p.2)) ∧
    (blitSprite fb x y bs).collided = (spritePixels x y bs).any fun p => p.2 && fb[p.1.val] := by
  rw [blitSprite, Blit.rows_eq_pixels]
  simpa using Blit.pixels_spec (spritePixels x y bs) ⟨fb, false⟩ (spritePixels_nodup bs x y h)

end Sys2Proof.Machine
end

