-- ==== Sys2Proof/Laws/PerInstr.lean ====
section
/-! SUPPORT. Per instruction: its encoding matches its own row of the opcode map (spec/30_encoding.md R74), and its
operands fit their fields (R73). -/

namespace Sys2Proof.Laws.EncodesInRow

theorem getLsbD_wordNnn (g : Nibble) (nnn : Addr) (k : Nat) :
    (wordNnn g nnn).getLsbD k = if k < 12 then nnn.getLsbD k else g.getLsbD (k - 12) :=
  BitVec.getLsbD_append

theorem getLsbD_wordXnn (g : Nibble) (x : Reg) (nn : Byte) (k : Nat) :
    (wordXnn g x nn).getLsbD k = if k < 8 then nn.getLsbD k else
      if k < 12 then (nibbleOfReg x).getLsbD (k - 8) else g.getLsbD (k - 12) := by
  have h : (wordXnn g x nn).getLsbD k =
      if k < 12 then (nibbleOfReg x ++ nn).getLsbD k else g.getLsbD (k - 12) := BitVec.getLsbD_append
  rw [h, BitVec.getLsbD_append]
  split <;> split <;> first | rfl | omega

theorem getLsbD_wordXyn (g : Nibble) (x y : Reg) (n : Nibble) (k : Nat) :
    (wordXyn g x y n).getLsbD k = if k < 4 then n.getLsbD k else
      if k < 8 then (nibbleOfReg y).getLsbD (k - 4) else
      if k < 12 then (nibbleOfReg x).getLsbD (k - 8) else g.getLsbD (k - 12) := by
  have h : (wordXyn g x y n).getLsbD k =
      if k < 12 then (nibbleOfReg x ++ (nibbleOfReg y ++ n)).getLsbD k else g.getLsbD (k - 12) :=
    BitVec.getLsbD_append
  rw [h, BitVec.getLsbD_append, BitVec.getLsbD_append]
  split <;> split <;> first | rfl | omega | (split <;> first | rfl | omega)

/-- A mask by which each field is kept whole or dropped keeps the word's major group. -/
theorem and_wordNnn (g : Nibble) (nnn : Addr) : wordNnn g nnn &&& 0xF000 = wordNnn g 0 := by
  refine BitVec.eq_of_getLsbD_eq fun k hk => ?_
  rw [BitVec.getLsbD_and, getLsbD_wordNnn, getLsbD_wordNnn]
  interval_cases k <;> simp

theorem and_wordXnn (g : Nibble) (x : Reg) (nn : Byte) : wordXnn g x nn &&& 0xF000 = wordXnn g 0 0 := by
  refine BitVec.eq_of_getLsbD_eq fun k hk => ?_
  rw [BitVec.getLsbD_and, getLsbD_wordXnn, getLsbD_wordXnn]
  interval_cases k <;> simp [nibbleOfReg]

theorem and_wordXnn_low (g : Nibble) (x : Reg) (nn : Byte) : wordXnn g x nn &&& 0xF0FF = wordXnn g 0 nn := by
  refine BitVec.eq_of_getLsbD_eq fun k hk => ?_
  rw [BitVec.getLsbD_and, getLsbD_wordXnn, getLsbD_wordXnn]
  interval_cases k <;> simp [nibbleOfReg]

theorem and_wordXyn (g : Nibble) (x y : Reg) (n : Nibble) : wordXyn g x y n &&& 0xF000 = wordXyn g 0 0 0 := by
  refine BitVec.eq_of_getLsbD_eq fun k hk => ?_
  rw [BitVec.getLsbD_and, getLsbD_wordXyn, getLsbD_wordXyn]
  interval_cases k <;> simp [nibbleOfReg]

theorem and_wordXyn_low (g : Nibble) (x y : Reg) (n : Nibble) : wordXyn g x y n &&& 0xF00F = wordXyn g 0 0 n := by
  refine BitVec.eq_of_getLsbD_eq fun k hk => ?_
  rw [BitVec.getLsbD_and, getLsbD_wordXyn, getLsbD_wordXyn]
  interval_cases k <;> simp [nibbleOfReg]

/-- The instruction's word matches the instruction's row, the row stands in the map, and the operands fit. -/
def Statement (i : Instr) : Prop :=
  i.row.matchesWord (encodeWord i) = true ∧ i.row ∈ opcodeRows ∧ i.wellFormed = true

theorem cls : Statement (.cls) :=
  ⟨by decide, by decide, by decide⟩

theorem ret : Statement (.ret) :=
  ⟨by decide, by decide, by decide⟩

theorem jpNnn (nnn : Addr) : Statement (.jpNnn nnn) :=
  ⟨by simp only [OpcodeRow.matchesWord, encodeWord, Instr.row, and_wordNnn]; decide, by simp only [Instr.row]; decide,
    by simp [Instr.wellFormed, operandsFit, Instr.operands, nnn.isLt]⟩

theorem callNnn (nnn : Addr) : Statement (.callNnn nnn) :=
  ⟨by simp only [OpcodeRow.matchesWord, encodeWord, Instr.row, and_wordNnn]; decide, by simp only [Instr.row]; decide,
    by simp [Instr.wellFormed, operandsFit, Instr.operands, nnn.isLt]⟩

theorem seVxNn (x : Reg) (nn : Byte) : Statement (.seVxNn x nn) :=
  ⟨by simp only [OpcodeRow.matchesWord, encodeWord, Instr.row, and_wordXnn]; decide, by simp only [Instr.row]; decide,
    by simp [Instr.wellFormed, operandsFit, Instr.operands, x.isLt, nn.isLt]⟩

theorem sneVxNn (x : Reg) (nn : Byte) : Statement (.sneVxNn x nn) :=
  ⟨by simp only [OpcodeRow.matchesWord, encodeWord, Instr.row, and_wordXnn]; decide, by simp only [Instr.row]; decide,
    by simp [Instr.wellFormed, operandsFit, Instr.operands, x.isLt, nn.isLt]⟩

theorem seVxVy (x y : Reg) : Statement (.seVxVy x y) :=
  ⟨by simp only [OpcodeRow.matchesWord, encodeWord, Instr.row, and_wordXyn_low]; decide, by simp only [Instr.row]; decide,
    by simp [Instr.wellFormed, operandsFit, Instr.operands, x.isLt, y.isLt]⟩

theorem ldVxNn (x : Reg) (nn : Byte) : Statement (.ldVxNn x nn) :=
  ⟨by simp only [OpcodeRow.matchesWord, encodeWord, Instr.row, and_wordXnn]; decide, by simp only [Instr.row]; decide,
    by simp [Instr.wellFormed, operandsFit, Instr.operands, x.isLt, nn.isLt]⟩

theorem addVxNn (x : Reg) (nn : Byte) : Statement (.addVxNn x nn) :=
  ⟨by simp only [OpcodeRow.matchesWord, encodeWord, Instr.row, and_wordXnn]; decide, by simp only [Instr.row]; decide,
    by simp [Instr.wellFormed, operandsFit, Instr.operands, x.isLt, nn.isLt]⟩

theorem ldVxVy (x y : Reg) : Statement (.ldVxVy x y) :=
  ⟨by simp only [OpcodeRow.matchesWord, encodeWord, Instr.row, and_wordXyn_low]; decide, by simp only [Instr.row]; decide,
    by simp [Instr.wellFormed, operandsFit, Instr.operands, x.isLt, y.isLt]⟩

theorem orVxVy (x y : Reg) : Statement (.orVxVy x y) :=
  ⟨by simp only [OpcodeRow.matchesWord, encodeWord, Instr.row, and_wordXyn_low]; decide, by simp only [Instr.row]; decide,
    by simp [Instr.wellFormed, operandsFit, Instr.operands, x.isLt, y.isLt]⟩

theorem andVxVy (x y : Reg) : Statement (.andVxVy x y) :=
  ⟨by simp only [OpcodeRow.matchesWord, encodeWord, Instr.row, and_wordXyn_low]; decide, by simp only [Instr.row]; decide,
    by simp [Instr.wellFormed, operandsFit, Instr.operands, x.isLt, y.isLt]⟩

theorem xorVxVy (x y : Reg) : Statement (.xorVxVy x y) :=
  ⟨by simp only [OpcodeRow.matchesWord, encodeWord, Instr.row, and_wordXyn_low]; decide, by simp only [Instr.row]; decide,
    by simp [Instr.wellFormed, operandsFit, Instr.operands, x.isLt, y.isLt]⟩

theorem addVxVy (x y : Reg) : Statement (.addVxVy x y) :=
  ⟨by simp only [OpcodeRow.matchesWord, encodeWord, Instr.row, and_wordXyn_low]; decide, by simp only [Instr.row]; decide,
    by simp [Instr.wellFormed, operandsFit, Instr.operands, x.isLt, y.isLt]⟩

theorem subVxVy (x y : Reg) : Statement (.subVxVy x y) :=
  ⟨by simp only [OpcodeRow.matchesWord, encodeWord, Instr.row, and_wordXyn_low]; decide, by simp only [Instr.row]; decide,
    by simp [Instr.wellFormed, operandsFit, Instr.operands, x.isLt, y.isLt]⟩

theorem shrVx (x y : Reg) : Statement (.shrVx x y) :=
  ⟨by simp only [OpcodeRow.matchesWord, encodeWord, Instr.row, and_wordXyn_low]; decide, by simp only [Instr.row]; decide,
    by simp [Instr.wellFormed, operandsFit, Instr.operands, x.isLt, y.isLt]⟩

theorem subnVxVy (x y : Reg) : Statement (.subnVxVy x y) :=
  ⟨by simp only [OpcodeRow.matchesWord, encodeWord, Instr.row, and_wordXyn_low]; decide, by simp only [Instr.row]; decide,
    by simp [Instr.wellFormed, operandsFit, Instr.operands, x.isLt, y.isLt]⟩

theorem shlVx (x y : Reg) : Statement (.shlVx x y) :=
  ⟨by simp only [OpcodeRow.matchesWord, encodeWord, Instr.row, and_wordXyn_low]; decide, by simp only [Instr.row]; decide,
    by simp [Instr.wellFormed, operandsFit, Instr.operands, x.isLt, y.isLt]⟩

theorem sneVxVy (x y : Reg) : Statement (.sneVxVy x y) :=
  ⟨by simp only [OpcodeRow.matchesWord, encodeWord, Instr.row, and_wordXyn_low]; decide, by simp only [Instr.row]; decide,
    by simp [Instr.wellFormed, operandsFit, Instr.operands, x.isLt, y.isLt]⟩

theorem ldINnn (nnn : Addr) : Statement (.ldINnn nnn) :=
  ⟨by simp only [OpcodeRow.matchesWord, encodeWord, Instr.row, and_wordNnn]; decide, by simp only [Instr.row]; decide,
    by simp [Instr.wellFormed, operandsFit, Instr.operands, nnn.isLt]⟩

theorem jpV0Nnn (nnn : Addr) : Statement (.jpV0Nnn nnn) :=
  ⟨by simp only [OpcodeRow.matchesWord, encodeWord, Instr.row, and_wordNnn]; decide, by simp only [Instr.row]; decide,
    by simp [Instr.wellFormed, operandsFit, Instr.operands, nnn.isLt]⟩

theorem rndVxNn (x : Reg) (nn : Byte) : Statement (.rndVxNn x nn) :=
  ⟨by simp only [OpcodeRow.matchesWord, encodeWord, Instr.row, and_wordXnn]; decide, by simp only [Instr.row]; decide,
    by simp [Instr.wellFormed, operandsFit, Instr.operands, x.isLt, nn.isLt]⟩

theorem drwVxVyN (x y : Reg) (n : Nibble) : Statement (.drwVxVyN x y n) :=
  ⟨by simp only [OpcodeRow.matchesWord, encodeWord, Instr.row, and_wordXyn]; decide, by simp only [Instr.row]; decide,
    by simp [Instr.wellFormed, operandsFit, Instr.operands, x.isLt, y.isLt, n.isLt]⟩

theorem skpVx (x : Reg) : Statement (.skpVx x) :=
  ⟨by simp only [OpcodeRow.matchesWord, encodeWord, Instr.row, and_wordXnn_low]; decide, by simp only [Instr.row]; decide,
    by simp [Instr.wellFormed, operandsFit, Instr.operands, x.isLt]⟩

theorem sknpVx (x : Reg) : Statement (.sknpVx x) :=
  ⟨by simp only [OpcodeRow.matchesWord, encodeWord, Instr.row, and_wordXnn_low]; decide, by simp only [Instr.row]; decide,
    by simp [Instr.wellFormed, operandsFit, Instr.operands, x.isLt]⟩

theorem ldVxDt (x : Reg) : Statement (.ldVxDt x) :=
  ⟨by simp only [OpcodeRow.matchesWord, encodeWord, Instr.row, and_wordXnn_low]; decide, by simp only [Instr.row]; decide,
    by simp [Instr.wellFormed, operandsFit, Instr.operands, x.isLt]⟩

theorem ldVxK (x : Reg) : Statement (.ldVxK x) :=
  ⟨by simp only [OpcodeRow.matchesWord, encodeWord, Instr.row, and_wordXnn_low]; decide, by simp only [Instr.row]; decide,
    by simp [Instr.wellFormed, operandsFit, Instr.operands, x.isLt]⟩

theorem ldDtVx (x : Reg) : Statement (.ldDtVx x) :=
  ⟨by simp only [OpcodeRow.matchesWord, encodeWord, Instr.row, and_wordXnn_low]; decide, by simp only [Instr.row]; decide,
    by simp [Instr.wellFormed, operandsFit, Instr.operands, x.isLt]⟩

theorem ldStVx (x : Reg) : Statement (.ldStVx x) :=
  ⟨by simp only [OpcodeRow.matchesWord, encodeWord, Instr.row, and_wordXnn_low]; decide, by simp only [Instr.row]; decide,
    by simp [Instr.wellFormed, operandsFit, Instr.operands, x.isLt]⟩

theorem addIVx (x : Reg) : Statement (.addIVx x) :=
  ⟨by simp only [OpcodeRow.matchesWord, encodeWord, Instr.row, and_wordXnn_low]; decide, by simp only [Instr.row]; decide,
    by simp [Instr.wellFormed, operandsFit, Instr.operands, x.isLt]⟩

theorem ldFVx (x : Reg) : Statement (.ldFVx x) :=
  ⟨by simp only [OpcodeRow.matchesWord, encodeWord, Instr.row, and_wordXnn_low]; decide, by simp only [Instr.row]; decide,
    by simp [Instr.wellFormed, operandsFit, Instr.operands, x.isLt]⟩

theorem ldBVx (x : Reg) : Statement (.ldBVx x) :=
  ⟨by simp only [OpcodeRow.matchesWord, encodeWord, Instr.row, and_wordXnn_low]; decide, by simp only [Instr.row]; decide,
    by simp [Instr.wellFormed, operandsFit, Instr.operands, x.isLt]⟩

theorem ldMiVx (x : Reg) : Statement (.ldMiVx x) :=
  ⟨by simp only [OpcodeRow.matchesWord, encodeWord, Instr.row, and_wordXnn_low]; decide, by simp only [Instr.row]; decide,
    by simp [Instr.wellFormed, operandsFit, Instr.operands, x.isLt]⟩

theorem ldVxMi (x : Reg) : Statement (.ldVxMi x) :=
  ⟨by simp only [OpcodeRow.matchesWord, encodeWord, Instr.row, and_wordXnn_low]; decide, by simp only [Instr.row]; decide,
    by simp [Instr.wellFormed, operandsFit, Instr.operands, x.isLt]⟩

end Sys2Proof.Laws.EncodesInRow
end

