-- ==== Sys2Proof/Laws/Step.lean ====
section
/-! SUPPORT. What a step can do, once; the word it fetches; the report it returns. -/

namespace Sys2Proof.Machine

/-- Below the limit, the word `step` fetches is the word at `pc` read through the address mask. -/
theorem State.fetchWord_eq_wordAtPc {s : State} (h : s.pc.toNat ≤ 4094) : s.fetchWord = wordAtPc s := by
  have h0 : s.pc.toNat % 4096 = s.pc.toNat := Nat.mod_eq_of_lt (by omega)
  have h1 : (s.pc.toNat + 1) % 65536 % 4096 = s.pc.toNat + 1 := by omega
  simp [State.fetchWord, wordAtPc, State.readMem, ea_toNat, BitVec.toNat_add, h0, h1]

theorem State.pcOutOfBounds_iff (s : State) : s.pcOutOfBounds = true ↔ 4094 < s.pc.toNat := by
  simp [State.pcOutOfBounds]

/-- Everything a step can do: nothing on a finished Machine; the error path on `pc` out of bounds; the report of an
illegal word; or the instruction at `pc`. -/
theorem step_cases (s : State) :
    (s.runState = .finished ∧ step s = .next s) ∨
    (s.runState = .running ∧ 4094 < s.pc.toNat ∧ step s = .next s.takeOutOfBounds) ∨
    (s.runState = .running ∧ s.pc.toNat ≤ 4094 ∧ (∃ e, decodeWord (wordAtPc s) = .error e) ∧
      step s = .next s.takeDecodeError) ∨
    (∃ i, Executes s i ∧ step s = exec i s.advance) := by
  rcases hrun : s.runState with _ | _
  · rcases hbound : s.pcOutOfBounds with _ | _
    · have hpc : s.pc.toNat ≤ 4094 := not_lt.1 fun h => by simp [(State.pcOutOfBounds_iff s).2 h] at hbound
      rcases hdec : decodeWord (wordAtPc s) with e | i
      · exact .inr (.inr (.inl ⟨rfl, hpc, ⟨e, rfl⟩, by
          simp [step, hrun, hbound, State.fetchWord_eq_wordAtPc hpc, hdec]⟩))
      · exact .inr (.inr (.inr ⟨i, ⟨hrun, hpc, hdec⟩, by
          simp [step, hrun, hbound, State.fetchWord_eq_wordAtPc hpc, hdec]⟩))
    · exact .inr (.inl ⟨rfl, (State.pcOutOfBounds_iff s).1 hbound, by simp [step, hrun, hbound]⟩)
  · exact .inl ⟨rfl, by simp [step, hrun]⟩

/-- At most one instruction is the next one. -/
theorem executes_unique {s : State} {i j : Instr} (hi : Executes s i) (hj : Executes s j) : i = j := by
  have h := hi.2.2
  rw [hj.2.2] at h
  exact (Except.ok.inj h).symm

/-- A step that recorded an error reports it. -/
theorem stepReport_of_error {s t : State} {e : StepError} (h : t.errors = e :: s.errors) :
    stepReport s t = .error e := by
  simp [stepReport, h]

/-- A step that recorded no error reports none. -/
theorem stepReport_of_same {s t : State} (h : t.errors = s.errors) : stepReport s t = .noReport := by
  unfold stepReport
  rw [h]
  split <;> simp_all

/-- The run of no transactions. -/
@[simp] theorem runTransactions_nil (s : State) : runTransactions [] s = .next s := rfl

/-- A run goes on from the state its first transaction answers. -/
theorem runTransactions_cons_next {a : Transaction} {s : State} {r : Response} (as : List Transaction)
    (h : transact a s = .next r) : runTransactions (a :: as) s = runTransactions as r.state := by
  simp [runTransactions, h]

/-- A run skips a refused transaction. -/
theorem runTransactions_cons_refused {a : Transaction} {s : State} {f : Refusal} (as : List Transaction)
    (h : transact a s = .refused f) : runTransactions (a :: as) s = runTransactions as s := by
  simp [runTransactions, h]

/-- Which instruction is next depends on memory, `pc` and the run state alone. -/
theorem executes_congr {s t : State} {i : Instr} (hmem : t.mem = s.mem) (hpc : t.pc = s.pc)
    (hrun : t.runState = s.runState) : Executes t i ↔ Executes s i := by
  simp [Executes, wordAtPc, State.readMem, hmem, hpc, hrun]

/-- Whether a state is an end of run depends on memory, `pc` and the run state alone. -/
theorem endOfRun_congr {s t : State} (hmem : t.mem = s.mem) (hpc : t.pc = s.pc) (hrun : t.runState = s.runState) :
    EndOfRun t ↔ EndOfRun s := by
  simp [EndOfRun, Spinning, executes_congr hmem hpc hrun, hpc, hrun]

end Sys2Proof.Machine
end

