-- ==== Sys2Proof/Tests/Slice0.lean ====
section
/-! SUPPORT. The model's own tests: well-formedness, one word of every constructor decoded, single steps taken from the
spec's vectors (spec/95_test_vectors.md, the vector's id stands in each comment), the host's transactions, and a named
witness for every obligation that has hypotheses. -/

namespace Sys2Proof.Tests

open Sys2Proof Sys2Proof.Machine

-- the kernel checks the small theorems below one after the other, not in one thread each
set_option Elab.async false

/-! ## Well-formedness -/

/-- A register number needs four bits: 16 is refused. -/
theorem test_illformed_register : operandsFit [(16, 4), (0xFF, 8)] = false := by decide

/-- A byte immediate needs eight bits: 256 is refused. -/
theorem test_illformed_byte : operandsFit [(15, 4), (256, 8)] = false := by decide

/-- An address immediate needs twelve bits: 4096 is refused. -/
theorem test_illformed_address : operandsFit [(4096, 12)] = false := by decide

/-- A sprite height needs four bits: 16 is refused. -/
theorem test_illformed_height : operandsFit [(15, 4), (15, 4), (16, 4)] = false := by decide

/-- The largest operands are accepted. -/
theorem test_wellformed_largest :
    (Instr.drwVxVyN 15 15 15).wellFormed = true ∧ (Instr.ldVxNn 15 0xFF).wellFormed = true ∧
      (Instr.callNnn 0xFFF).wellFormed = true := by decide

/-- X1, X2, X3, X4, X5, X6, X7: words of each of the six groups with gaps are refused. -/
theorem test_illegal_words :
    [0x0000, 0x00E1, 0x00FD, 0x0123, 0x5121, 0x512F, 0x8128, 0x812D, 0x812F, 0x9121, 0xE000, 0xE19F, 0xE1A0, 0xF100,
      0xF130, 0xF075, 0xF175, 0xFFFF].all (fun w : Word => !legalWord w) = true := by decide

/-- The same words are refused by name by the decoder. -/
theorem test_illegal_words_by_name :
    decodeWord 0x0123 = .error (.illegal 0x0123) ∧ decodeWord 0x5121 = .error (.illegal 0x5121) ∧
    decodeWord 0x8128 = .error (.illegal 0x8128) ∧ decodeWord 0x9121 = .error (.illegal 0x9121) ∧
    decodeWord 0xE19F = .error (.illegal 0xE19F) ∧ decodeWord 0xFFFF = .error (.illegal 0xFFFF) := by
  decide +kernel

/-- One byte is no instruction (R70). -/
theorem test_truncated : decode [0x60] = .error (.truncated [0x60]) := by decide

/-! ## Decoding

One word of each constructor, its bits written out from spec/30_encoding.md R72 and R74 with `X = 0b1010`,
`Y = 0b0101`, `N = 0b0110`, `NN = 0b1100_0101` and `NNN = 0b1001_0011_0101`. -/

theorem test_decode_cls : decodeWord 0b0000_0000_1110_0000 = .ok .cls := by decide +kernel

theorem test_decode_ret : decodeWord 0b0000_0000_1110_1110 = .ok .ret := by decide +kernel

theorem test_decode_jpNnn : decodeWord 0b0001_1001_0011_0101 = .ok (.jpNnn 0x935) := by decide +kernel

theorem test_decode_callNnn : decodeWord 0b0010_1001_0011_0101 = .ok (.callNnn 0x935) := by decide +kernel

theorem test_decode_seVxNn : decodeWord 0b0011_1010_1100_0101 = .ok (.seVxNn 0xA 0xC5) := by decide +kernel

theorem test_decode_sneVxNn : decodeWord 0b0100_1010_1100_0101 = .ok (.sneVxNn 0xA 0xC5) := by decide +kernel

theorem test_decode_seVxVy : decodeWord 0b0101_1010_0101_0000 = .ok (.seVxVy 0xA 0x5) := by decide +kernel

theorem test_decode_ldVxNn : decodeWord 0b0110_1010_1100_0101 = .ok (.ldVxNn 0xA 0xC5) := by decide +kernel

theorem test_decode_addVxNn : decodeWord 0b0111_1010_1100_0101 = .ok (.addVxNn 0xA 0xC5) := by decide +kernel

theorem test_decode_ldVxVy : decodeWord 0b1000_1010_0101_0000 = .ok (.ldVxVy 0xA 0x5) := by decide +kernel

theorem test_decode_orVxVy : decodeWord 0b1000_1010_0101_0001 = .ok (.orVxVy 0xA 0x5) := by decide +kernel

theorem test_decode_andVxVy : decodeWord 0b1000_1010_0101_0010 = .ok (.andVxVy 0xA 0x5) := by decide +kernel

theorem test_decode_xorVxVy : decodeWord 0b1000_1010_0101_0011 = .ok (.xorVxVy 0xA 0x5) := by decide +kernel

theorem test_decode_addVxVy : decodeWord 0b1000_1010_0101_0100 = .ok (.addVxVy 0xA 0x5) := by decide +kernel

theorem test_decode_subVxVy : decodeWord 0b1000_1010_0101_0101 = .ok (.subVxVy 0xA 0x5) := by decide +kernel

theorem test_decode_shrVx : decodeWord 0b1000_1010_0101_0110 = .ok (.shrVx 0xA 0x5) := by decide +kernel

theorem test_decode_subnVxVy : decodeWord 0b1000_1010_0101_0111 = .ok (.subnVxVy 0xA 0x5) := by decide +kernel

theorem test_decode_shlVx : decodeWord 0b1000_1010_0101_1110 = .ok (.shlVx 0xA 0x5) := by decide +kernel

theorem test_decode_sneVxVy : decodeWord 0b1001_1010_0101_0000 = .ok (.sneVxVy 0xA 0x5) := by decide +kernel

theorem test_decode_ldINnn : decodeWord 0b1010_1001_0011_0101 = .ok (.ldINnn 0x935) := by decide +kernel

theorem test_decode_jpV0Nnn : decodeWord 0b1011_1001_0011_0101 = .ok (.jpV0Nnn 0x935) := by decide +kernel

theorem test_decode_rndVxNn : decodeWord 0b1100_1010_1100_0101 = .ok (.rndVxNn 0xA 0xC5) := by decide +kernel

theorem test_decode_drwVxVyN : decodeWord 0b1101_1010_0101_0110 = .ok (.drwVxVyN 0xA 0x5 0x6) := by decide +kernel

theorem test_decode_skpVx : decodeWord 0b1110_1010_1001_1110 = .ok (.skpVx 0xA) := by decide +kernel

theorem test_decode_sknpVx : decodeWord 0b1110_1010_1010_0001 = .ok (.sknpVx 0xA) := by decide +kernel

theorem test_decode_ldVxDt : decodeWord 0b1111_1010_0000_0111 = .ok (.ldVxDt 0xA) := by decide +kernel

theorem test_decode_ldVxK : decodeWord 0b1111_1010_0000_1010 = .ok (.ldVxK 0xA) := by decide +kernel

theorem test_decode_ldDtVx : decodeWord 0b1111_1010_0001_0101 = .ok (.ldDtVx 0xA) := by decide +kernel

theorem test_decode_ldStVx : decodeWord 0b1111_1010_0001_1000 = .ok (.ldStVx 0xA) := by decide +kernel

theorem test_decode_addIVx : decodeWord 0b1111_1010_0001_1110 = .ok (.addIVx 0xA) := by decide +kernel

theorem test_decode_ldFVx : decodeWord 0b1111_1010_0010_1001 = .ok (.ldFVx 0xA) := by decide +kernel

theorem test_decode_ldBVx : decodeWord 0b1111_1010_0011_0011 = .ok (.ldBVx 0xA) := by decide +kernel

theorem test_decode_ldMiVx : decodeWord 0b1111_1010_0101_0101 = .ok (.ldMiVx 0xA) := by decide +kernel

theorem test_decode_ldVxMi : decodeWord 0b1111_1010_0110_0101 = .ok (.ldVxMi 0xA) := by decide +kernel

/-- `Y` is decoded but not used in the shifts: the words differ, the effect does not (R72; A14). -/
theorem test_decode_shift_keeps_y : decodeWord 0x8306 = .ok (.shrVx 3 0) ∧ decodeWord 0x83F6 = .ok (.shrVx 3 15) := by
  decide +kernel

/-- Big-endian: the first byte is the high one (R70). -/
theorem test_decode_bytes : decode [0x6A, 0x55, 0x12] = .ok (.ldVxNn 0xA 0x55, [0x12]) := by decide +kernel

/-- The opcode table's numbering: bit 0 is the low bit of the one 16-bit word. -/
theorem test_decodeTableWord : decodeTableWord 16 0xDAB4 = some (.drwVxVyN 0xA 0xB 4) ∧ decodeTableWord 16 0 = none := by
  decide +kernel

/-- An encoding, by hand from R72: `SHR V3` is 0x8306 (R78). -/
theorem test_encode_shr : encode (.shrVx 3 0) = [0x83, 0x06] := by decide +kernel

/-! ## Single steps -/

/-- The launch state with the word `w` at `pc` (the conventions of spec/95_test_vectors.md). -/
def launch (w : Nat) : State := State.reset.withFetchWord 16 w

/-- What `f` sees after one step of `s`, when the step answers a next state. -/
def seen {α : Type} (s : State) (f : State → α) : Option α :=
  match step s with
  | .next t => some (f t)
  | _ => none

/-- What a step of `s` returns. -/
def returned (s : State) : Option Output :=
  match transact .step s with
  | .next r => some r.output
  | _ => none

/-- `s` with these registers. -/
def withRegs (s : State) (rs : List (Reg × Byte)) : State := rs.foldl (fun s r => s.setReg r.1 r.2) s

/-- `s` with the pixel `(x, y)` on. -/
def lit (s : State) (x y : Nat) : State := s.setFb (s.fb.set (pixelIndex x y).val true)

/-- The pixel `(x, y)`. -/
def pixel (s : State) (x y : Nat) : Bool := s.fb[(pixelIndex x y).val]

/-- The number of pixels that are on. -/
def litCount (s : State) : Nat := s.fb.toList.countP id

/-- D8, S7. -/
theorem test_cls_clears :
    seen ((lit (lit (launch 0x00E0) 0 0) 63 31).setReg 15 1)
      (fun t => (litCount t, t.reg 15, t.pc)) = some (0, 1, 0x202) := by
  decide +kernel

/-- X13. -/
theorem test_ret_underflow :
    (let s := { State.reset with pc := 0x300 }.withFetchWord 16 0x00EE
     (seen s (fun t => (t.pc, t.sp, t.runState)), returned s)) =
      (some (0x302, 0, .finished), some (.stepped .finished (.error .stackUnderflow))) := by
  decide +kernel

/-- CF7: an odd return address is taken as it stands, and the slot keeps it. -/
theorem test_ret_pops :
    seen ({ launch 0x00EE with sp := 1, stack := (launch 0x00EE).stack.set 0 0x0ABD })
      (fun t => (t.sp, t.pc, t.stack[0])) = some (0, 0x0ABD, 0x0ABD) := by
  decide +kernel

/-- CF1. -/
theorem test_jp :
    seen (launch 0x1FFF) (fun t => t.pc) = some 0x0FFF := by
  decide +kernel

/-- CF5: the sixteenth nested call succeeds. -/
theorem test_call_16th :
    seen ({ { State.reset with pc := 0x300 }.withFetchWord 16 0x2ABC with sp := 15 })
      (fun t => (t.stack[15], t.sp, t.pc)) = some (0x0302, 16, 0x0ABC) := by
  decide +kernel

/-- X12. -/
theorem test_call_overflow :
    (let s := { { State.reset with pc := 0x300 }.withFetchWord 16 0x2ABC with sp := 16 }
     (seen s (fun t => (t.pc, t.sp, t.runState)), returned s)) =
      (some (0x302, 16, .finished), some (.stepped .finished (.error .stackOverflow))) := by
  decide +kernel

/-- CF8. -/
theorem test_se_nn_skips :
    seen (withRegs (launch 0x3309) [(3, 0x09)]) (fun t => t.pc) = some 0x204 := by
  decide +kernel

/-- CF9. -/
theorem test_se_nn_stays :
    seen (withRegs (launch 0x330A) [(3, 0x09)]) (fun t => t.pc) = some 0x202 := by
  decide +kernel

/-- CF12: VF is an ordinary operand. -/
theorem test_sne_nn_stays :
    seen (withRegs (launch 0x4F01) [(15, 0x01)]) (fun t => t.pc) = some 0x202 := by
  decide +kernel

/-- CF11. -/
theorem test_sne_nn_skips :
    seen (withRegs (launch 0x430A) [(3, 0x09)]) (fun t => t.pc) = some 0x204 := by
  decide +kernel

/-- CF13. -/
theorem test_se_xy_same :
    seen (withRegs (launch 0x5330) [(3, 0x09)]) (fun t => t.pc) = some 0x204 := by
  decide +kernel

/-- CF15. -/
theorem test_se_xy_differ :
    seen (withRegs (launch 0x5120) [(1, 1), (2, 2)]) (fun t => t.pc) = some 0x202 := by
  decide +kernel

/-- L2: VF loaded as data. -/
theorem test_ld_nn :
    seen (withRegs (launch 0x6F00) [(15, 0x07)]) (fun t => t.reg 15) = some 0x00 := by
  decide +kernel

/-- L4. -/
theorem test_add_nn_no_flag :
    seen (withRegs (launch 0x7101) [(1, 0xFF), (15, 0x07)]) (fun t => (t.reg 1, t.reg 15)) = some (0x00, 0x07) := by
  decide +kernel

/-- L5: a plain wrap in VF. -/
theorem test_add_nn_vf :
    seen (withRegs (launch 0x7F02) [(15, 0xFF)]) (fun t => t.reg 15) = some 0x01 := by
  decide +kernel

/-- L6. -/
theorem test_ld_xy :
    seen (withRegs (launch 0x8120) [(1, 0x12), (2, 0x34)]) (fun t => (t.reg 1, t.reg 2)) = some (0x34, 0x34) := by
  decide +kernel

/-- L7. -/
theorem test_or :
    seen (withRegs (launch 0x8121) [(1, 0x55), (2, 0xAA), (15, 9)])
      (fun t => (t.reg 1, t.reg 15)) = some (0xFF, 0x09) := by
  decide +kernel

/-- L8. -/
theorem test_and :
    seen (withRegs (launch 0x8122) [(1, 0x55), (2, 0xAA)]) (fun t => t.reg 1) = some 0x00 := by
  decide +kernel

/-- L9: X = Y. -/
theorem test_xor :
    seen (withRegs (launch 0x8113) [(1, 0x5A), (15, 9)]) (fun t => (t.reg 1, t.reg 15)) = some (0x00, 0x09) := by
  decide +kernel

/-- A3: a sum of exactly 255 has no carry. -/
theorem test_add_xy_255 :
    seen (withRegs (launch 0x8124) [(1, 0x80), (2, 0x7F)]) (fun t => (t.reg 1, t.reg 15)) = some (0xFF, 0) := by
  decide +kernel

/-- A6: the old VF is the operand. -/
theorem test_add_xy_y_is_vf :
    seen (withRegs (launch 0x81F4) [(1, 0x10), (15, 0xF5)]) (fun t => (t.reg 1, t.reg 15)) = some (0x05, 1) := by
  decide +kernel

/-- A7: equal bytes need no borrow. -/
theorem test_sub_xy_equal :
    seen (withRegs (launch 0x8125) [(1, 0x33), (2, 0x33)]) (fun t => (t.reg 1, t.reg 15)) = some (0x00, 1) := by
  decide +kernel

/-- A10: the flag stands in VF. -/
theorem test_sub_xy_x_is_vf :
    seen (withRegs (launch 0x8F15) [(15, 3), (1, 5)]) (fun t => t.reg 15) = some 0 := by
  decide +kernel

/-- A14: V2 is neither read nor written. -/
theorem test_shr :
    seen (withRegs (launch 0x8126) [(1, 0x05), (2, 0xAA)])
      (fun t => (t.reg 1, t.reg 2, t.reg 15)) = some (0x02, 0xAA, 1) := by
  decide +kernel

/-- A15. -/
theorem test_shr_logical :
    seen (withRegs (launch 0x8106) [(1, 0x80)]) (fun t => (t.reg 1, t.reg 15)) = some (0x40, 0) := by
  decide +kernel

/-- A12. -/
theorem test_subn :
    seen (withRegs (launch 0x8127) [(1, 0x0A), (2, 0x05)])
      (fun t => (t.reg 1, t.reg 2, t.reg 15)) = some (0xFB, 0x05, 0) := by
  decide +kernel

/-- A18. -/
theorem test_shl :
    seen (withRegs (launch 0x812E) [(1, 0xFF), (2, 0xAA)])
      (fun t => (t.reg 1, t.reg 2, t.reg 15)) = some (0xFE, 0xAA, 1) := by
  decide +kernel

/-- A20: the shifted data is lost. -/
theorem test_shl_x_is_vf :
    seen (withRegs (launch 0x8F0E) [(15, 0x40)]) (fun t => t.reg 15) = some 0 := by
  decide +kernel

/-- CF14. -/
theorem test_sne_xy_same :
    seen (withRegs (launch 0x9330) [(3, 9)]) (fun t => t.pc) = some 0x202 := by
  decide +kernel

/-- CF15. -/
theorem test_sne_xy_differ :
    seen (withRegs (launch 0x9120) [(1, 1), (2, 2)]) (fun t => t.pc) = some 0x204 := by
  decide +kernel

/-- M1. -/
theorem test_ld_i :
    seen (launch 0xA123) (fun t => t.i) = some 0x0123 := by
  decide +kernel

/-- CF3: no 12-bit wrap. -/
theorem test_jp_v0 :
    seen (withRegs (launch 0xBFFF) [(0, 0xFF)]) (fun t => t.pc) = some 0x10FE := by
  decide +kernel

/-- A step whose word at `pc` is `i`'s runs `i`: the form in which the witnesses below are checked. -/
theorem step_of_word {s : State} {i : Instr} (hrun : s.runState = .running) (hpc : s.pcOutOfBounds = false)
    (hdec : decodeWord s.fetchWord = .ok i) : step s = exec i s.advance := by
  simp [step, hrun, hpc, hdec]

/-- A22: with NN = 0 the result is 0 for every draw. -/
theorem test_rnd_masked : ∃ t, step (launch 0xC100) = .next t ∧ t.reg 1 = 0x00 ∧ t.draws = 1 := by
  refine ⟨_, (step_of_word (i := .rndVxNn 1 0x00) rfl (by decide +kernel) (by decide +kernel)).trans rfl, ?_, rfl⟩
  rw [State.reg_setReg_self]
  exact BitVec.and_zero

/-- A23: with NN = 0xFF the result is the draw itself. -/
theorem test_rnd_whole : ∃ t, step (launch 0xC1FF) = .next t ∧ t.reg 1 = Config.draw 0 := by
  refine ⟨_, (step_of_word (i := .rndVxNn 1 0xFF) rfl (by decide +kernel) (by decide +kernel)).trans rfl, ?_⟩
  rw [State.reg_setReg_self]
  exact BitVec.and_allOnes

/-- D1: each coordinate wraps by itself. -/
theorem test_drw_wraps :
    seen ({ withRegs ((launch 0xD012).writeBytes 0x300 [0xC3, 0x18]) [(0, 62), (1, 31)] with i := 0x300 })
      (fun t => ([(62, 31), (63, 31), (4, 31), (5, 31), (1, 0), (2, 0)].all (fun p => pixel t p.1 p.2), litCount t, t.reg 15)) = some (true, 6, 0) := by
  decide +kernel

/-- D5: the old VF is both coordinates. -/
theorem test_drw_collides :
    seen (lit ({ withRegs ((launch 0xDFF1).writeBytes 0x300 [0xA0]) [(15, 1)] with i := 0x300 }) 1 1)
      (fun t => (pixel t 1 1, pixel t 3 1, litCount t, t.reg 15)) = some (false, true, 1, 1) := by
  decide +kernel

/-- K1: the low nibble is the key. -/
theorem test_skp :
    seen ((withRegs (launch 0xE19E) [(1, 0x17)]).setKeyLatch 7 true) (fun t => t.pc) = some 0x204 := by
  decide +kernel

/-- K3. -/
theorem test_skp_up :
    seen (withRegs (launch 0xE19E) [(1, 5)]) (fun t => t.pc) = some 0x202 := by
  decide +kernel

/-- K2. -/
theorem test_sknp :
    seen ((withRegs (launch 0xE1A1) [(1, 0x17)]).setKeyLatch 7 true) (fun t => t.pc) = some 0x202 := by
  decide +kernel

/-- K4. -/
theorem test_sknp_up :
    seen (withRegs (launch 0xE1A1) [(1, 5)]) (fun t => t.pc) = some 0x204 := by
  decide +kernel

/-- T1. -/
theorem test_ld_dt :
    seen ({ launch 0xF307 with dt := 0x2A }) (fun t => (t.reg 3, t.dt)) = some (0x2A, 0x2A) := by
  decide +kernel

/-- K5. -/
theorem test_wait_lowest :
    seen (((withRegs (launch 0xF20A) [(2, 0x99)]).setKeyLatch 11 true).setKeyLatch 4 true)
      (fun t => (t.reg 2, t.pc)) = some (0x04, 0x202) := by
  decide +kernel

/-- K6. -/
theorem test_wait_none :
    seen (withRegs (launch 0xF20A) [(2, 0x99)]) (fun t => (t.reg 2, t.pc)) = some (0x99, 0x200) := by
  decide +kernel

/-- T2. -/
theorem test_set_dt :
    seen (withRegs (launch 0xF315) [(3, 0xFF)]) (fun t => (t.dt, t.st)) = some (0xFF, 0) := by
  decide +kernel

/-- T3. -/
theorem test_set_st :
    seen (withRegs (launch 0xF318) [(3, 1)]) (fun t => (t.dt, t.st)) = some (0, 1) := by
  decide +kernel

/-- M2: no overflow flag. -/
theorem test_add_i_no_flag :
    seen ({ withRegs (launch 0xF11E) [(1, 1), (15, 7)] with i := 0x0FFF })
      (fun t => (t.i, t.reg 15)) = some (0x1000, 0x07) := by
  decide +kernel

/-- M3. -/
theorem test_add_i_wraps :
    seen ({ withRegs (launch 0xF11E) [(1, 2)] with i := 0xFFFF }) (fun t => t.i) = some 0x0001 := by
  decide +kernel

/-- M5: only the low nibble counts. -/
theorem test_ld_f :
    seen (withRegs (launch 0xF129) [(1, 0x1A)]) (fun t => t.i) = some 0x0082 := by
  decide +kernel

/-- M6. -/
theorem test_ld_f_last :
    seen (withRegs (launch 0xF129) [(1, 0x0F)]) (fun t => t.i) = some 0x009B := by
  decide +kernel

/-- M9: three digits across the top of memory. -/
theorem test_bcd_wraps :
    seen ({ withRegs (launch 0xF133) [(1, 0xFF)] with i := 0x0FFF })
      (fun t => (t.readMem 0xFFF, t.readMem 0x000, t.readMem 0x001, t.i)) = some (2, 5, 5, 0x0FFF) := by
  decide +kernel

/-- M10. -/
theorem test_bcd_masks :
    seen ({ withRegs (launch 0xF133) [(1, 0x9C)] with i := 0x1300 })
      (fun t => (t.readMem 0x300, t.readMem 0x301, t.readMem 0x302, t.i)) = some (1, 5, 6, 0x1300) := by
  decide +kernel

/-- M11: V0 alone is stored. -/
theorem test_store_inclusive :
    seen ({ withRegs ((launch 0xF055).writeMem 0x301 0x99) [(0, 0x11), (1, 0x22)] with i := 0x300 })
      (fun t => (t.readMem 0x300, t.readMem 0x301, t.i)) = some (0x11, 0x99, 0x0300) := by
  decide +kernel

/-- M15: the instruction overwrites itself, already fetched. -/
theorem test_store_own_bytes :
    seen ({ withRegs (launch 0xF155) [(0, 0xAA), (1, 0xBB)] with i := 0x200 })
      (fun t => (t.readMem 0x200, t.readMem 0x201, t.pc)) = some (0xAA, 0xBB, 0x202) := by
  decide +kernel

/-- M14. -/
theorem test_load_wraps :
    seen ({ (((launch 0xF265).writeBytes 0xFFE [0x11, 0x22, 0x33, 0x44]).setReg 3 0x77) with i := 0x0FFE })
      (fun t => (t.reg 0, t.reg 1, t.reg 2, t.reg 3, t.i)) = some (0x11, 0x22, 0x33, 0x77, 0x0FFE) := by
  decide +kernel

/-- V0..V4 of glyph 0, the default font table (D11). -/
theorem test_load_font :
    seen ({ launch 0xF465 with i := 0x0050 })
      (fun t => (t.reg 0, t.reg 1, t.reg 2, t.reg 3, t.reg 4)) = some (0xF0, 0x90, 0x90, 0x90, 0xF0) := by
  decide +kernel

/-! ## The step and the host's transactions -/

/-- X1. -/
theorem test_step_illegal :
    returned State.reset = some (.stepped .running (.error (.decodeError 0x0000))) ∧
      seen State.reset (fun t => t.pc) = some 0x202 := by decide +kernel

/-- X9: the last instruction slot executes, and the next step finds `pc` out of bounds. -/
theorem test_step_last_slot :
    seen ({ State.reset with pc := 0xFFE }.withFetchWord 16 0x6001) (fun t => (t.reg 0, t.pc, returned t)) =
      some (0x01, 0x1000, some (.stepped .finished (.error .outOfBoundsPC))) := by decide +kernel

/-- X10. -/
theorem test_step_out_of_bounds :
    seen { State.reset with pc := 0xFFF } (fun t => (t.pc, t.runState)) = some (0xFFF, .finished) := by decide +kernel

/-- X11. -/
theorem test_step_finished :
    returned { State.reset with runState := .finished } = some (.stepped .finished .noReport) := by decide +kernel

/-- CF2: an odd `pc` fetches the two bytes that stand there. -/
theorem test_step_odd_pc :
    seen { State.reset.writeBytes 0x200 [0x12, 0x03, 0x00, 0x6A, 0x55] with pc := 0x203 } (fun t => (t.reg 10, t.pc)) =
      some (0x55, 0x205) := by decide +kernel

/-- `withFetchWord` places the word where the next step fetches it, after reset. -/
theorem test_withFetchWord :
    State.fetchWord (State.reset.withFetchWord 16 0x7FFE) = 0x7FFE ∧
      seen (State.reset.withFetchWord 16 0x6AFF) (fun t => t.reg 0xA) = some 0xFF := by decide +kernel

/-- Writing a byte's reset content removes its entry: equal memories are equal lists. -/
theorem test_memory_canonical :
    ((State.reset.writeMem 0x300 5).writeMem 0x050 1).mem = [(0x050, 1), (0x300, 5)] ∧
      ((State.reset.writeMem 0x300 5).writeMem 0x300 0).mem = [] ∧
      (State.reset.writeMem 0x050 0xF0).mem = [] := by decide +kernel

/-- Rising order is part of the canonical form. -/
theorem test_memory_wf :
    Memory.wf [(0x050, 1), (0x300, 5)] = true ∧ Memory.wf [(0x300, 5), (0x050, 1)] = false ∧
      Memory.wf [(0x300, 0)] = false ∧ Memory.wf [(4096, 1)] = false := by decide +kernel

/-- T6. -/
theorem test_tick :
    (tickTimers { State.reset with dt := 255, st := 1 }).dt = 254 ∧
      (tickTimers { State.reset with dt := 255, st := 1 }).st = 0 ∧
      timerSignal { State.reset with dt := 255, st := 1 } = .playSound := by decide +kernel

/-- T4 and T5. -/
theorem test_tick_floor :
    (tickTimers State.reset).dt = 0 ∧ timerSignal State.reset = .none ∧
      (tickTimers { State.reset with dt := 5, st := 2 }).st = 1 ∧
      timerSignal { State.reset with dt := 5, st := 2 } = .none := by decide +kernel

/-- K8 and K9. -/
theorem test_set_key :
    setKey 16 true State.reset = .refused (.keyIndexOutOfRange 16) ∧
      (State.reset.setKeyLatch 3 true).keyDown 3 = true ∧
      ((State.reset.setKeyLatch 3 true).setKeyLatch 3 false).key = State.reset.key := by
  refine ⟨rfl, ?_⟩
  decide +kernel

/-- Z2. -/
theorem test_load_program :
    (State.reset.writeBytes 0x200 [0x12, 0x00]).readMem 0x200 = 0x12 ∧
      (State.reset.writeBytes 0x200 [0x12, 0x00]).pc = 0x200 := by decide +kernel

/-- Z4: 3585 bytes are refused. -/
theorem test_load_program_oversized :
    loadProgram (List.replicate 3585 0) State.reset = .refused (.oversizedRom 3585) := by
  rw [loadProgram, List.length_replicate]
  exact if_pos (by decide)

/-- S9: two steps, `A234` then `F029`. -/
theorem test_program_ldI_ldF :
    seen (State.reset.writeBytes 0x200 [0xA2, 0x34, 0xF0, 0x29]) (fun t => (t.i, seen t (fun u => (u.i, u.pc)))) =
      some (0x0234, some (0x0050, 0x204)) := by decide +kernel

/-! ## Witnesses

For every obligation with hypotheses, concrete values that meet all of them; for one with several clauses, values for each
clause, at the ends of its range. -/

/-- EncodedInstructionDecodesToItself: the largest and the smallest operands. -/
theorem witness_wellFormed :
    [Instr.cls, .jpNnn 0xFFF, .jpNnn 0, .drwVxVyN 15 15 15, .drwVxVyN 0 0 0, .ldVxNn 15 0xFF].all
      (fun i => i.wellFormed) = true := by decide

/-- DecoderFollowsTheOpcodeMap: an accepted word, a word that matches a row, an illegal word. -/
theorem witness_decoder_clauses :
    decodeWord 0xFF65 = .ok (.ldVxMi 15) ∧
      (∃ r ∈ opcodeRows, r.matchesWord 0x8FFE = true) ∧ legalWord 0xFFFF = false ∧ legalWord 0x0000 = false :=
  ⟨by decide +kernel, ⟨⟨0x800E, 0xF00F⟩, by decide, by decide⟩, by decide, by decide⟩

/-- OpcodeRowsAreDisjoint: a word and two names of its row. -/
theorem witness_rows :
    ∃ r ∈ opcodeRows, ∃ q ∈ opcodeRows, r.matchesWord 0x8FF7 = true ∧ q.matchesWord 0x8FF7 = true :=
  ⟨⟨0x8007, 0xF00F⟩, by decide, ⟨0x8007, 0xF00F⟩, by decide, by decide, by decide⟩

/-- The state at the last instruction slot, with `6001` there. -/
def lastSlot : State := { State.reset with pc := 0xFFE }.withFetchWord 16 0x6001

/-- StepRunsTheDecodedInstruction, at the largest `pc` that passes the bound check. -/
theorem witness_step_runs :
    lastSlot.runState = .running ∧ lastSlot.pc.toNat = 4094 ∧
      decode [lastSlot.readMem (ea lastSlot.pc), lastSlot.readMem (ea (lastSlot.pc + 1))] = .ok (.ldVxNn 0 1, []) ∧
      (Instr.ldVxNn 0 1).wellFormed = true := by decide +kernel

/-- FinishedStepChangesNothing, FinishedIsAbsorbing and EndOfRunLasts: a finished state, and a word of each kind. -/
theorem witness_finished :
    ({ State.reset with runState := .finished } : State).runState = .finished ∧
      Transaction.new ∉ [Transaction.step, .tickTimers, .setKey 16 true, .loadProgram [0x12, 0x00]] ∧
      (∀ bytes, Transaction.loadProgram bytes ∉ [Transaction.step, .framebuffer, .setKey 15 true]) ∧
      ∀ a ∈ [Transaction.step, .tickTimers, .framebuffer, .setKey 16 true],
        a = .step ∨ a = .tickTimers ∨ a = .framebuffer ∨ ∃ index pressed, a = .setKey index pressed := by
  simp

/-- EndOfRunLasts: a finished state, and a running one that jumps to itself. -/
theorem witness_end_of_run :
    EndOfRun { State.reset with runState := .finished } ∧
      (EndOfRun (launch 0x1200) ∧ (launch 0x1200).runState = .running) :=
  ⟨.inl rfl, .inr ⟨0x200, ⟨rfl, by decide +kernel, by decide +kernel⟩, by decide +kernel⟩, rfl⟩

/-- A jump elsewhere is no end of run, and neither is an `FX0A` that waits. -/
theorem test_no_end_of_run : ¬ EndOfRun (launch 0x1202) ∧ ¬ EndOfRun (launch 0xF20A) := by
  have hjump : Executes (launch 0x1202) (.jpNnn 0x202) := ⟨rfl, by decide +kernel, by decide +kernel⟩
  have hwait : Executes (launch 0xF20A) (.ldVxK 2) := ⟨rfl, by decide +kernel, by decide +kernel⟩
  constructor
  · rintro (h | ⟨nnn, h, hpc⟩)
    · cases h
    · cases executes_unique hjump h
      exact absurd hpc (by decide +kernel)
  · rintro (h | ⟨nnn, h, -⟩)
    · cases h
    · cases executes_unique hwait h

/-- OutOfBoundsPcFinishes: the smallest `pc` out of bounds and the largest an instruction can produce. -/
theorem witness_out_of_bounds :
    ({ State.reset with pc := 4095 } : State).runState = .running ∧
      4094 < ({ State.reset with pc := 4095 } : State).pc.toNat ∧
      4094 < ({ State.reset with pc := 0x10FE } : State).pc.toNat := by decide +kernel

/-- IllegalWordIsReportedAndSkipped: after reset, and at the last slot. -/
theorem witness_illegal :
    State.reset.runState = .running ∧ State.reset.pc.toNat ≤ 4094 ∧ legalWord (wordAtPc State.reset) = false ∧
      legalWord (wordAtPc { State.reset with pc := 4094 }) = false := by decide +kernel

/-- A running state steps: the premise of the statements about a next state. -/
theorem witness_step_next :
    State.reset.runState = .running ∧ step State.reset = .next State.reset.takeDecodeError :=
  ⟨rfl, by
    rcases step_cases State.reset with ⟨h, -⟩ | ⟨-, h, -⟩ | ⟨-, -, -, h⟩ | ⟨i, h, -⟩
    · cases h
    · exact absurd h (by decide +kernel)
    · exact h
    · have hw : wordAtPc State.reset = 0x0000 := by decide +kernel
      have hd := h.2.2
      rw [hw, show decodeWord 0x0000 = .error (.illegal 0x0000) by decide +kernel] at hd
      cases hd⟩

/-- StepReportsAtMostOneError and ExactlyThreeWaysToFinish: a call on a full stack and a return on an empty one. -/
theorem witness_stack_errors :
    Executes { launch 0x2ABC with sp := 16 } (.callNnn 0xABC) ∧ Executes (launch 0x00EE) .ret ∧
      (launch 0x00EE).sp.val = 0 :=
  ⟨⟨rfl, by decide +kernel, by decide +kernel⟩, ⟨rfl, by decide +kernel, by decide +kernel⟩, rfl⟩

/-- The same two step to a next state. -/
theorem witness_stack_error_steps :
    (∃ t, step { launch 0x2ABC with sp := 16 } = .next t ∧ t.runState = .finished) ∧
      ∃ t, step (launch 0x00EE) = .next t ∧ t.runState = .finished :=
  ⟨⟨_, (step_of_word (i := .callNnn 0xABC) rfl (by decide +kernel) (by decide +kernel)).trans rfl, rfl⟩,
    ⟨_, (step_of_word (i := .ret) rfl (by decide +kernel) (by decide +kernel)).trans rfl, rfl⟩⟩

/-- StepReturnsOneOfSixPairs. -/
theorem witness_step_response : ∃ r, transact .step State.reset = .next r :=
  ⟨_, by rw [transact, witness_step_next.2]; rfl⟩

/-- PcAfterEveryInstruction and RegistersWrittenByEachInstruction: a register outside those written. -/
theorem witness_exec_next :
    exec (.ldVxNn 3 7) State.reset = .next (State.reset.setReg 3 7) ∧ (4 : Reg) ∉ writtenRegs (.ldVxNn 3 7) :=
  ⟨rfl, by decide⟩

/-- The launch state with the word `w` at `pc` and 7 in `V3`. -/
def withV3 (w : Nat) : State := (launch w).setReg 3 7

/-- A step that executes `i` answers what `exec` answers. -/
theorem changes_of_word {s t : State} {i : Instr} (hrun : s.runState = .running) (hpc : s.pcOutOfBounds = false)
    (hdec : decodeWord s.fetchWord = .ok i) (hexec : exec i s.advance = .next t) : step s = .next t :=
  (step_of_word hrun hpc hdec).trans hexec

/-- EachPartChangesOnlyByItsInstructions: steps that change `I`, the stack and `sp`. -/
theorem witness_part_changes :
    (∃ t, step (launch 0xA123) = .next t ∧ t.i ≠ (launch 0xA123).i) ∧
      ∃ t, step (launch 0x2300) = .next t ∧ t.stack ≠ (launch 0x2300).stack ∧ t.sp ≠ (launch 0x2300).sp :=
  ⟨⟨_, changes_of_word (i := .ldINnn 0x123) rfl (by decide +kernel) (by decide +kernel) rfl, by decide +kernel⟩,
    ⟨_, changes_of_word (i := .callNnn 0x300) rfl (by decide +kernel) (by decide +kernel) rfl, by decide +kernel⟩⟩

/-- EachPartChangesOnlyByItsInstructions: steps that change `DT`, `ST` and the display. -/
theorem witness_device_changes :
    (∃ t, step (withV3 0xF315) = .next t ∧ t.dt ≠ (withV3 0xF315).dt) ∧
      (∃ t, step (withV3 0xF318) = .next t ∧ t.st ≠ (withV3 0xF318).st) ∧
      ∃ t, step (lit (launch 0x00E0) 5 5) = .next t ∧ t.fb ≠ (lit (launch 0x00E0) 5 5).fb :=
  ⟨⟨_, changes_of_word (i := .ldDtVx 3) rfl (by decide +kernel) (by decide +kernel) rfl, by decide +kernel⟩,
    ⟨_, changes_of_word (i := .ldStVx 3) rfl (by decide +kernel) (by decide +kernel) rfl, by decide +kernel⟩,
    ⟨_, changes_of_word (i := .cls) rfl (by decide +kernel) (by decide +kernel) rfl, fun h =>
      absurd (congrArg (fun fb : FrameBuffer => fb[5 + 64 * 5]) h) (by decide +kernel)⟩⟩

/-- EachPartChangesOnlyByItsInstructions: steps that change memory and the draw counter. -/
theorem witness_memory_and_draw_changes :
    (∃ t, step (withV3 0xF333) = .next t ∧ t.mem ≠ (withV3 0xF333).mem) ∧
      ∃ t, step (launch 0xC1FF) = .next t ∧ t.draws ≠ (launch 0xC1FF).draws :=
  ⟨⟨_, changes_of_word (i := .ldBVx 3) rfl (by decide +kernel) (by decide +kernel) rfl, by decide +kernel⟩,
    ⟨_, changes_of_word (i := .rndVxNn 1 0xFF) rfl (by decide +kernel) (by decide +kernel) rfl, by decide +kernel⟩⟩

/-- The arithmetic statements' clause `x ≠ VF`, at sums 255 and 256, and the flag's own register. -/
theorem witness_alu_clauses :
    (14 : Reg) ≠ regVF ∧ (15 : Reg) = regVF ∧
      ((withRegs State.reset [(1, 0x80), (2, 0x7F)]).reg 1).toNat +
        ((withRegs State.reset [(1, 0x80), (2, 0x7F)]).reg 2).toNat = 255 ∧
      ((withRegs State.reset [(1, 0x80), (2, 0x80)]).reg 1).toNat +
        ((withRegs State.reset [(1, 0x80), (2, 0x80)]).reg 2).toNat = 256 := by decide +kernel

/-- The encoding clauses: for each, a word whose fields are those it asks for, at the ends of the operand fields. -/
theorem witness_fields :
    (n1Field 0x6FFF = 0x6 ∧ n1Field 0x6000 = 0x6 ∧ n1Field 0x7FFF = 0x7 ∧ n1Field 0xAFFF = 0xA) ∧
      [(0x8FF0, 0x0), (0x8FF1, 0x1), (0x8FF2, 0x2), (0x8FF3, 0x3), (0x8FF4, 0x4), (0x8FF5, 0x5), (0x8FF6, 0x6),
        (0x800E, 0xE)].all (fun p : Word × Nibble => n1Field p.1 == 0x8 && n4Field p.1 == p.2) = true ∧
      [(0xFF1E, 0x1E), (0xF029, 0x29), (0xFF33, 0x33)].all
        (fun p : Word × Byte => n1Field p.1 == 0xF && nnField p.1 == p.2) = true := by decide +kernel

/-- FlagIsWrittenLastWhateverTheOperands: a pair of the list, with both operands VF. -/
theorem witness_flag_list (s : State) :
    (Instr.addVxVy 15 15, decide (255 < (s.reg 15).toNat + (s.reg 15).toNat)) ∈
      [(Instr.addVxVy 15 15, decide (255 < (s.reg 15).toNat + (s.reg 15).toNat)),
        (.subVxVy 15 15, decide ((s.reg 15).toNat ≤ (s.reg 15).toNat))] := List.mem_cons_self ..

/-- The statements in canonical memory: after reset, and with bytes on both sides of the wrap. -/
theorem witness_memory_wf :
    Memory.wf State.reset.mem = true ∧
      Memory.wf (State.reset.writeBytes 0xFFE [1, 2, 3, 4]).mem = true := by decide +kernel

/-- RegistersAreStoredFromI and RegistersAreLoadedFromI: the ends of the range of `k`. -/
theorem witness_register_range : (0 : Reg) ≤ 15 ∧ (15 : Reg) ≤ 15 ∧ (0 : Reg) ≤ 0 := by decide

/-- StoreThenLoadRestoresTheRegisters: a later state with the same memory and `I` and other registers. -/
theorem witness_store_then_load :
    ∃ t, exec (.ldMiVx 15) State.reset = .next t ∧
      ∃ u : State, u.mem = t.mem ∧ u.i = t.i ∧ u.reg 0 ≠ t.reg 0 :=
  ⟨_, rfl, { State.reset with v := Vector.replicate 16 9 }, by decide +kernel⟩

/-- Program P4 before its step 4: `F155` at 0x206 with `I` at the next word. -/
def selfModifying : State :=
  { withRegs (State.reset.writeBytes 0x206 [0xF1, 0x55]) [(0, 0x12), (1, 0x0A)] with pc := 0x206, i := 0x208 }

/-- StoredWordIsFetchedNext. -/
theorem witness_self_modifying :
    Memory.wf selfModifying.mem = true ∧ Executes selfModifying (.ldMiVx 1) ∧ 1 ≤ (1 : Reg).val ∧
      ea selfModifying.i = ea (selfModifying.pc + 2) ∧ ∃ t, step selfModifying = .next t :=
  ⟨by decide +kernel, ⟨rfl, by decide +kernel, by decide +kernel⟩, by decide, by decide +kernel,
    ⟨_, (step_of_word (i := .ldMiVx 1) rfl (by decide +kernel) (by decide +kernel)).trans rfl⟩⟩

/-- The stack statements: depths 0, 1, 15 and 16. -/
theorem witness_depths :
    State.reset.sp.val < 16 ∧ ({ State.reset with sp := 15 } : State).sp.val < 16 ∧
      ({ State.reset with sp := 16 } : State).sp.val = 16 ∧ 0 < ({ State.reset with sp := 16 } : State).sp.val ∧
      0 < ({ State.reset with sp := 1 } : State).sp.val ∧ State.reset.sp.val = 0 := by decide

/-- CallThenReturnComesBack: a later state of the call's depth, whose slot above `sp` a nested call has overwritten. -/
theorem witness_call_then_return :
    ∃ t, exec (.callNnn 0x300) State.reset = .next t ∧
      ∃ u : State, u.sp = t.sp ∧ (∀ k : Fin 16, k.val < u.sp.val → u.stack[k.val] = t.stack[k.val]) ∧
        u.stack ≠ t.stack ∧ u.pc ≠ t.pc :=
  ⟨_, rfl, { State.reset with stack := (State.reset.stack.set 0 0x200).set 1 0x306, sp := 1, pc := 0x345 },
    by decide +kernel⟩

/-- JumpToItselfChangesNothing: `1200` at 0x200. -/
theorem witness_spinning : Spinning (launch 0x1200) :=
  ⟨0x200, ⟨rfl, by decide +kernel, by decide +kernel⟩, by decide +kernel⟩

/-- A state whose sprite, one row `80` at `(63, 31)`, has its 1 bit over the last pixel. -/
def cornerSprite : State := withRegs { State.reset.writeMem 0x300 0x80 with i := 0x300 } [(0, 63), (1, 31)]

/-- DrawInvertsUnderTheSprite: the sprite's pixel, and one beside it. -/
theorem witness_draw_pixels :
    SpriteBitOver cornerSprite 0 1 1 63 31 ∧ ¬ SpriteBitOver cornerSprite 0 1 1 0 31 := by
  refine ⟨⟨0, by decide, 0, by decide, by decide +kernel, by decide +kernel, by decide +kernel⟩, ?_⟩
  rintro ⟨row, hrow, col, hcol, hbit, hx, hy⟩
  have hrow0 : row = 0 := by
    have h1 : row < 1 := hrow
    omega
  have hx63 : (cornerSprite.reg 0).toNat = 63 := by decide +kernel
  rw [hx63] at hx
  have hcol1 : col = 1 := by omega
  subst hrow0 hcol1
  revert hbit
  decide +kernel

/-- DrawInvertsUnderTheSprite: with that pixel on the draw collides, on a clear screen every sprite pixel is off. -/
theorem witness_draw_collision :
    (lit cornerSprite 63 31).fb[63 + 64 * 31] = true ∧
      ∀ k : Fin 2048, cornerSprite.fb[k.val] = false := by
  constructor
  · decide +kernel
  · intro k
    simp [cornerSprite, withRegs, State.setReg, State.writeMem, State.reset]

/-- The state after a draw, with everything but the display as before it. -/
theorem draw_twice_premises (s : State) :
    ∃ t, exec (.drwVxVyN 0 1 1) s = .next t ∧
      ∃ u : State, u.fb = t.fb ∧ u.mem = s.mem ∧ u.i = s.i ∧ u.reg 0 = s.reg 0 ∧ u.reg 1 = s.reg 1 :=
  ⟨_, rfl, { s with fb := (s.spriteBlit 0 1 1).fb }, rfl, rfl, rfl, rfl, rfl⟩

/-- DrawingTwiceRestoresTheScreen. -/
theorem witness_draw_twice :
    ∃ t, exec (.drwVxVyN 0 1 1) cornerSprite = .next t ∧
      ∃ u : State, u.fb = t.fb ∧ u.mem = cornerSprite.mem ∧ u.i = cornerSprite.i ∧
        u.reg 0 = cornerSprite.reg 0 ∧ u.reg 1 = cornerSprite.reg 1 :=
  draw_twice_premises cornerSprite

/-- KeySkips: the ends of the key range, from a byte above 15. -/
theorem witness_key_index :
    (15 : Fin 16).val = ((State.reset.setReg 1 0xFF).reg 1).toNat % 16 ∧
      (0 : Fin 16).val = ((State.reset.setReg 1 0x10).reg 1).toNat % 16 := by decide +kernel

/-- WaitForKeyTakesTheLowestKey: the lowest key 0, the lowest key 15, no key. -/
theorem witness_lowest_key :
    ((State.reset.setKeyLatch 0 true).key[(0 : Fin 16).val] = true ∧ ∀ j : Fin 16, ¬ j < 0) ∧
      ((State.reset.setKeyLatch 15 true).key[(15 : Fin 16).val] = true ∧
        ∀ j : Fin 16, j < 15 → (State.reset.setKeyLatch 15 true).key[j.val] = false) ∧
      ∀ k : Fin 16, State.reset.key[k.val] = false := by decide +kernel

/-- WaitingForAKeyChangesNothing. -/
theorem witness_waiting :
    Executes (launch 0xF20A) (.ldVxK 2) ∧ ∀ k : Fin 16, (launch 0xF20A).key[k.val] = false :=
  ⟨⟨rfl, by decide +kernel, by decide +kernel⟩, by decide +kernel⟩

/-- TicksCommuteWithOtherSteps: a step that is no timer instruction. -/
theorem witness_no_timer_instruction :
    (∃ t, step (launch 0xA123) = .next t) ∧
      ¬ ∃ x, Executes (launch 0xA123) (.ldVxDt x) ∨ Executes (launch 0xA123) (.ldDtVx x) ∨
        Executes (launch 0xA123) (.ldStVx x) := by
  have hx : Executes (launch 0xA123) (.ldINnn 0x123) := ⟨rfl, by decide +kernel, by decide +kernel⟩
  refine ⟨⟨_, (step_of_word (i := .ldINnn 0x123) rfl (by decide +kernel) (by decide +kernel)).trans rfl⟩, ?_⟩
  rintro ⟨x, h | h | h⟩ <;> cases executes_unique hx h

/-- SetKeySetsOneLatch: the last index accepted and the first refused. -/
theorem witness_key_contract : (15 : Nat) < 16 ∧ 16 ≤ 16 := by decide

/-- LoadProgramCopiesTheImage: the longest image accepted, the shortest refused, and the empty one. -/
theorem witness_load_contract :
    (List.replicate 3584 (0xFF : Byte)).length ≤ 3584 ∧ 3584 < (List.replicate 3585 (0xFF : Byte)).length ∧
      ([] : List Byte).length ≤ 3584 := by
  simp only [List.length_replicate, List.length_nil]
  decide

/-- StepKeepsTheInvariant: a state with a pending call that meets the invariant, and steps. -/
theorem witness_invariant :
    Inv { launch 0xA123 with sp := 1, stack := (launch 0xA123).stack.set 0 0x0202 } ∧
      ∃ t, step { launch 0xA123 with sp := 1, stack := (launch 0xA123).stack.set 0 0x0202 } = .next t := by
  refine ⟨⟨by decide +kernel, ?_, by decide +kernel⟩,
    ⟨_, (step_of_word (i := .ldINnn 0x123) rfl (by decide +kernel) (by decide +kernel)).trans rfl⟩⟩
  intro k hk
  have hk0 : k = 0 := Fin.ext (by simpa using hk)
  subst hk0
  decide +kernel

/-- EveryReachableStateMeetsTheInvariant: a state reached by a step. -/
theorem witness_reachable : Reachable State.reset.takeDecodeError :=
  .transact State.reset .step ⟨State.reset.takeDecodeError, .stepped .running (.error (.decodeError 0))⟩ .reset (by
    rw [transact, witness_step_next.2]
    have hw : State.reset.fetchWord = 0 := by decide +kernel
    simp only [stepResponse, stepReport, State.takeDecodeError, State.reportError, hw]
    rfl)

/-- StaleStackSlotsAreUnobservable: two states that differ in slot 0 with no pending call, and step. -/
theorem witness_stale_slots :
    SameButStaleSlots (launch 0xA123) { launch 0xA123 with stack := (launch 0xA123).stack.set 0 0x0ABD } ∧
      ∃ t, step (launch 0xA123) = .next t :=
  ⟨⟨rfl, fun k hk => absurd hk (Nat.not_lt_zero k.val)⟩,
    ⟨_, (step_of_word (i := .ldINnn 0x123) rfl (by decide +kernel) (by decide +kernel)).trans rfl⟩⟩

/-- HighBitsOfIAreUnobservable: two states that differ in the high bits of `I`, and step. -/
theorem witness_high_bits :
    SameButHighIndex { launch 0xF055 with i := 0x0300 } { launch 0xF055 with i := 0x1300 } ∧
      ∃ t, step { launch 0xF055 with i := 0x0300 } = .next t :=
  ⟨⟨rfl, by decide +kernel⟩,
    ⟨_, (step_of_word (i := .ldMiVx 0) rfl (by decide +kernel) (by decide +kernel)).trans rfl⟩⟩

end Sys2Proof.Tests
end

section
/-! The load, add-immediate and shift instructions of spec/42_load_alu.md: which words they are, and what each answers. -/

namespace Sys2Proof

/-! Which words they are (spec/30_encoding.md R74, R75) -/

theorem decodeWord_of_n1_eq_6 {w : Word} (h : n1Field w = 0x6) :
    decodeWord w = .ok (.ldVxNn (xField w) (nnField w)) := by
  simp [decodeWord, h]

theorem decodeWord_of_n1_eq_7 {w : Word} (h : n1Field w = 0x7) :
    decodeWord w = .ok (.addVxNn (xField w) (nnField w)) := by
  simp [decodeWord, h]

theorem decodeWord_of_n1_eq_8 {w : Word} (h : n1Field w = 0x8) : decodeWord w = decodeGroup8 w := by
  simp [decodeWord, h]

theorem decodeGroup8_of_n4_eq_6 {w : Word} (h : n4Field w = 0x6) :
    decodeGroup8 w = .ok (.shrVx (xField w) (yField w)) := by
  simp [decodeGroup8, h]

theorem decodeGroup8_of_n4_eq_E {w : Word} (h : n4Field w = 0xE) :
    decodeGroup8 w = .ok (.shlVx (xField w) (yField w)) := by
  simp [decodeGroup8, h]

end Sys2Proof

namespace Sys2Proof.Machine

/-! What each of them answers -/

theorem exec_ldVxNn (x : Reg) (nn : Byte) (s : State) : exec (.ldVxNn x nn) s = .next (s.setReg x nn) := rfl

theorem exec_addVxNn (x : Reg) (nn : Byte) (s : State) :
    exec (.addVxNn x nn) s = .next (s.setReg x (s.reg x + nn)) := rfl

theorem exec_shrVx (x y : Reg) (s : State) :
    exec (.shrVx x y) s = .next (s.setResultThenFlag x (s.reg x >>> 1) (shiftedOutRight (s.reg x))) := rfl

theorem exec_shlVx (x y : Reg) (s : State) :
    exec (.shlVx x y) s = .next (s.setResultThenFlag x (s.reg x <<< 1) (shiftedOutLeft (s.reg x))) := rfl

/-! Registers after a result and its flag (R133) -/

/-- The flag stands in VF even where the result went there too. -/
@[simp] theorem State.reg_setResultThenFlag_regVF (s : State) (x : Reg) (b : Byte) (f : Bool) :
    (s.setResultThenFlag x b f).reg regVF = flagByte f := by
  simp [State.reg_setResultThenFlag]

@[simp] theorem State.reg_setResultThenFlag_self (s : State) {x : Reg} (b : Byte) (f : Bool) (h : x ≠ regVF) :
    (s.setResultThenFlag x b f).reg x = b := by
  simp [State.reg_setResultThenFlag, h]

/-! The shifted byte and the bit it loses, as numbers (R128, R130) -/

@[simp] theorem flagByte_toNat (b : Bool) : (flagByte b).toNat = b.toNat := by
  cases b <;> rfl

theorem shiftedOutRight_toNat (a : Byte) : (shiftedOutRight a).toNat = a.toNat % 2 := by
  have hbit : (shiftedOutRight a).toNat = a.toNat / 1 % 2 := Nat.toNat_testBit a.toNat 0
  rwa [Nat.div_one] at hbit

/-- Bit 7 is the quotient by 128 itself, since a byte is below 256. -/
theorem shiftedOutLeft_toNat (a : Byte) : (shiftedOutLeft a).toNat = a.toNat / 128 := by
  have hbit : (shiftedOutLeft a).toNat = a.toNat / 128 % 2 := Nat.toNat_testBit a.toNat 7
  have hlt := a.isLt
  omega

theorem byte_shiftRight_one_toNat (a : Byte) : (a >>> 1).toNat = a.toNat / 2 := by
  rw [BitVec.toNat_ushiftRight, Nat.shiftRight_eq_div_pow, pow_one]

theorem byte_shiftLeft_one_toNat (a : Byte) : (a <<< 1).toNat = 2 * a.toNat % 256 := by
  rw [BitVec.toNat_shiftLeft, Nat.shiftLeft_eq, pow_one, Nat.mul_comm]

/-- Settles O17: the state answered is `setReg` of the byte sum, which wraps as `BitVec` addition does. -/
theorem addImmediateWrapsWithoutFlag : Obligations.AddImmediateWrapsWithoutFlag := by
  refine ⟨fun _ => decodeWord_of_n1_eq_7, fun s x nn => ⟨_, exec_addVxNn x nn s, ?_, frame_setReg s x _⟩⟩
  rw [State.reg_setReg_self, BitVec.toNat_add]

/-- Settles O22: both shifts end in `setResultThenFlag`, with the shifted byte as result and the lost bit as flag. -/
theorem shiftsPutTheLostBitInVF : Obligations.ShiftsPutTheLostBitInVF := by
  refine ⟨fun w h8 => ⟨fun h6 => ?_, fun hE => ?_⟩, fun s x y =>
    ⟨⟨_, exec_shrVx x y s, ?_, fun hx => ?_, frame_setResultThenFlag s x _ _⟩,
      ⟨_, exec_shlVx x y s, ?_, fun hx => ?_, frame_setResultThenFlag s x _ _⟩⟩⟩
  · rw [decodeWord_of_n1_eq_8 h8, decodeGroup8_of_n4_eq_6 h6]
  · rw [decodeWord_of_n1_eq_8 h8, decodeGroup8_of_n4_eq_E hE]
  · rw [State.reg_setResultThenFlag_regVF, flagByte_toNat, shiftedOutRight_toNat]
  · rw [State.reg_setResultThenFlag_self s _ _ hx, byte_shiftRight_one_toNat]
  · rw [State.reg_setResultThenFlag_regVF, flagByte_toNat, shiftedOutLeft_toNat]
  · rw [State.reg_setResultThenFlag_self s _ _ hx, byte_shiftLeft_one_toNat]

/-- Settles O16: the state answered is `setReg` of the immediate. -/
theorem loadImmediateWritesTheRegister : Obligations.LoadImmediateWritesTheRegister :=
  ⟨fun _ => decodeWord_of_n1_eq_6, fun s x nn =>
    ⟨_, exec_ldVxNn x nn s, State.reg_setReg_self s x nn, frame_setReg s x nn⟩⟩

end Sys2Proof.Machine
end

section
/-! The instructions that write the index register, spec/43_index_memory.md R140 to R142: which words they are, the
number that each puts into `I`, and what each answers. -/

namespace Sys2Proof

/-! Which words they are (spec/30_encoding.md R74, R75) -/

theorem decodeWord_of_n1_eq_A {w : Word} (h : n1Field w = 0xA) : decodeWord w = .ok (.ldINnn (nnnField w)) := by
  simp [decodeWord, h]

theorem decodeWord_of_n1_eq_F {w : Word} (h : n1Field w = 0xF) : decodeWord w = decodeGroupF w := by
  simp [decodeWord, h]

theorem decodeGroupF_of_nn_eq_1E {w : Word} (h : nnField w = 0x1E) : decodeGroupF w = .ok (.addIVx (xField w)) := by
  simp [decodeGroupF, h]

theorem decodeGroupF_of_nn_eq_29 {w : Word} (h : nnField w = 0x29) : decodeGroupF w = .ok (.ldFVx (xField w)) := by
  simp [decodeGroupF, h]

end Sys2Proof

namespace Sys2Proof.Machine

/-! What each of them answers -/

theorem exec_ldINnn (nnn : Addr) (s : State) : exec (.ldINnn nnn) s = .next (s.setI (zextAddr nnn)) := rfl

theorem exec_addIVx (x : Reg) (s : State) :
    exec (.addIVx x) s = .next (s.setI (s.i + zextByte (s.reg x))) := rfl

theorem exec_ldFVx (x : Reg) (s : State) : exec (.ldFVx x) s = .next (s.setI (glyphAddress (s.reg x))) := rfl

/-! The 16-bit operands as numbers -/

@[simp] theorem zextAddr_toNat (nnn : Addr) : (zextAddr nnn).toNat = nnn.toNat :=
  BitVec.toNat_setWidth_of_le (by decide)

@[simp] theorem zextByte_toNat (b : Byte) : (zextByte b).toNat = b.toNat :=
  BitVec.toNat_setWidth_of_le (by decide)

/-- The last glyph begins at 0x09B, so the address never wraps. -/
theorem glyphAddress_toNat (b : Byte) : (glyphAddress b).toNat = 0x050 + 5 * (b.toNat % 16) := by
  have hlt : 0x050 + 5 * (b.toNat % 16) < 2 ^ 16 := by omega
  exact (BitVec.toNat_ofNat _ 16).trans (Nat.mod_eq_of_lt hlt)

/-- Settles O25: each of the three answers `setI` of a 16-bit value, and only the sum of `FX1E` can wrap. -/
theorem indexInstructionsWriteOnlyI : Obligations.IndexInstructionsWriteOnlyI := by
  refine ⟨fun w => ⟨decodeWord_of_n1_eq_A, fun hF h1E => ?_, fun hF h29 => ?_⟩, fun s nnn x =>
    ⟨⟨_, exec_ldINnn nnn s, zextAddr_toNat nnn, frame_setI s _⟩,
      ⟨_, exec_addIVx x s, ?_, frame_setI s _⟩,
      ⟨_, exec_ldFVx x s, glyphAddress_toNat (s.reg x), frame_setI s _⟩⟩⟩
  · rw [decodeWord_of_n1_eq_F hF, decodeGroupF_of_nn_eq_1E h1E]
  · rw [decodeWord_of_n1_eq_F hF, decodeGroupF_of_nn_eq_29 h29]
  · rw [State.setI_i, BitVec.toNat_add, zextByte_toNat]

end Sys2Proof.Machine
end

section
/-! The clear instruction `00E0` of spec/44_display.md R150: which word it is, and what it answers. -/

namespace Sys2Proof

/-! Which word it is (spec/30_encoding.md R74, R75): group 0x0 alone answers it, and there the whole word is fixed -/

theorem decodeGroup0_eq_cls_iff (w : Word) : decodeGroup0 w = .ok .cls ↔ w = 0x00E0 := by
  unfold decodeGroup0
  split_ifs with hcls hret
  · exact iff_of_true rfl hcls
  · exact iff_of_false nofun hcls
  · exact iff_of_false nofun hcls

theorem decodeXY0_ne_cls {ctor : Reg → Reg → Instr} (hctor : ∀ x y, ctor x y ≠ .cls) (w : Word) :
    decodeXY0 ctor w ≠ .ok .cls := by
  unfold decodeXY0
  split_ifs <;> simp [hctor]

theorem decodeGroup8_ne_cls (w : Word) : decodeGroup8 w ≠ .ok .cls := by
  unfold decodeGroup8
  split_ifs <;> simp

theorem decodeGroupE_ne_cls (w : Word) : decodeGroupE w ≠ .ok .cls := by
  unfold decodeGroupE
  split_ifs <;> simp

theorem decodeGroupF_ne_cls (w : Word) : decodeGroupF w ≠ .ok .cls := by
  unfold decodeGroupF
  split_ifs <;> simp

/-- Of the sixteen groups, each taken where the ones before it are not, only group 0x0 is left. -/
theorem decodeWord_eq_cls_iff_decodeGroup0 (w : Word) :
    decodeWord w = .ok .cls ↔ n1Field w = 0x0 ∧ decodeGroup0 w = .ok .cls := by
  simp [decodeWord, ite_eq_iff, decodeXY0_ne_cls, decodeGroup8_ne_cls, decodeGroupE_ne_cls, decodeGroupF_ne_cls]

theorem decodeWord_eq_cls_iff (w : Word) : decodeWord w = .ok .cls ↔ w = 0x00E0 := by
  have hgroup : w = 0x00E0 → n1Field w = 0x0 := by
    rintro rfl
    decide
  rw [decodeWord_eq_cls_iff_decodeGroup0, decodeGroup0_eq_cls_iff, and_iff_right_of_imp hgroup]

end Sys2Proof

namespace Sys2Proof.Machine

/-! What it answers -/

theorem exec_cls (s : State) : exec .cls s = .next (s.setFb clearedFrameBuffer) := rfl

@[simp] theorem clearedFrameBuffer_get (k : Fin 2048) : clearedFrameBuffer[k.val] = false :=
  Vector.getElem_replicate k.isLt

/-- Settles O38: `00E0` answers `setFb` of the cleared framebuffer, and only its own word decodes to it. -/
theorem clearMakesEveryCellFalse : Obligations.ClearMakesEveryCellFalse :=
  ⟨decodeWord_eq_cls_iff, fun s => ⟨_, exec_cls s, clearedFrameBuffer_get, frame_setFb s _⟩⟩

end Sys2Proof.Machine
end

section
/-! The encoding, spec/30_encoding.md R71 to R76: the fields of a composed word, the decoder and the encoder as inverses
of each other, and the decoder's acceptance as the opcode map's. -/

namespace Sys2Proof

/-! The fields of a word composed of fields (R71, R72) -/

@[simp] theorem regOfNibble_nibbleOfReg (x : Reg) : regOfNibble (nibbleOfReg x) = x :=
  Fin.ext (Nat.mod_eq_of_lt x.isLt)

@[simp] theorem nibbleOfReg_regOfNibble (n : Nibble) : nibbleOfReg (regOfNibble n) = n :=
  BitVec.eq_of_toNat_eq (Nat.mod_eq_of_lt n.isLt)

@[simp] theorem n1Field_wordNnn (g : Nibble) (nnn : Addr) : n1Field (wordNnn g nnn) = g :=
  BitVec.extractLsb'_append_eq_left

@[simp] theorem nnnField_wordNnn (g : Nibble) (nnn : Addr) : nnnField (wordNnn g nnn) = nnn :=
  BitVec.extractLsb'_append_eq_right

@[simp] theorem n1Field_wordXnn (g : Nibble) (x : Reg) (nn : Byte) : n1Field (wordXnn g x nn) = g :=
  BitVec.extractLsb'_append_eq_left

@[simp] theorem xField_wordXnn (g : Nibble) (x : Reg) (nn : Byte) : xField (wordXnn g x nn) = x := by
  have hx : (wordXnn g x nn).extractLsb' 8 4 = nibbleOfReg x :=
    (BitVec.extractLsb'_append_eq_of_add_le (by decide)).trans BitVec.extractLsb'_append_eq_left
  rw [xField, hx, regOfNibble_nibbleOfReg]

@[simp] theorem nnField_wordXnn (g : Nibble) (x : Reg) (nn : Byte) : nnField (wordXnn g x nn) = nn :=
  (BitVec.extractLsb'_append_eq_of_add_le (by decide)).trans BitVec.extractLsb'_append_eq_right

@[simp] theorem n1Field_wordXyn (g : Nibble) (x y : Reg) (n : Nibble) : n1Field (wordXyn g x y n) = g :=
  BitVec.extractLsb'_append_eq_left

@[simp] theorem xField_wordXyn (g : Nibble) (x y : Reg) (n : Nibble) : xField (wordXyn g x y n) = x := by
  have hx : (wordXyn g x y n).extractLsb' 8 4 = nibbleOfReg x :=
    (BitVec.extractLsb'_append_eq_of_add_le (by decide)).trans BitVec.extractLsb'_append_eq_left
  rw [xField, hx, regOfNibble_nibbleOfReg]

@[simp] theorem yField_wordXyn (g : Nibble) (x y : Reg) (n : Nibble) : yField (wordXyn g x y n) = y := by
  have hy : (wordXyn g x y n).extractLsb' 4 4 = nibbleOfReg y :=
    (BitVec.extractLsb'_append_eq_of_add_le (by decide)).trans
      ((BitVec.extractLsb'_append_eq_of_add_le (by decide)).trans BitVec.extractLsb'_append_eq_left)
  rw [yField, hy, regOfNibble_nibbleOfReg]

@[simp] theorem n4Field_wordXyn (g : Nibble) (x y : Reg) (n : Nibble) : n4Field (wordXyn g x y n) = n :=
  (BitVec.extractLsb'_append_eq_of_add_le (by decide)).trans
    ((BitVec.extractLsb'_append_eq_of_add_le (by decide)).trans BitVec.extractLsb'_append_eq_right)

/-! A word is composed of its own fields -/

theorem wordNnn_fields {w : Word} {g : Nibble} (h : n1Field w = g) : wordNnn g (nnnField w) = w := by
  subst h
  exact BitVec.extractLsb'_append_extractLsb' (w := 4) (len := 12)

theorem wordXnn_fields {w : Word} {g : Nibble} {nn : Byte} (h : n1Field w = g) (hnn : nnField w = nn) :
    wordXnn g (xField w) nn = w := by
  subst hnn
  have hlow : nibbleOfReg (xField w) ++ nnField w = nnnField w := by
    rw [xField, nibbleOfReg_regOfNibble]
    exact BitVec.extractLsb'_append_extractLsb'_eq_extractLsb' rfl
  exact (congrArg (g ++ ·) hlow).trans (wordNnn_fields h)

theorem wordXyn_fields {w : Word} {g n : Nibble} (h : n1Field w = g) (hn : n4Field w = n) :
    wordXyn g (xField w) (yField w) n = w := by
  subst hn
  have hlow : nibbleOfReg (yField w) ++ n4Field w = nnField w := by
    rw [yField, nibbleOfReg_regOfNibble]
    exact BitVec.extractLsb'_append_extractLsb'_eq_extractLsb' rfl
  exact (congrArg (fun b : Byte => wordXnn g (xField w) b) hlow).trans (wordXnn_fields h rfl)

/-! What the decoder does with each major group (R75) -/

theorem decodeWord_of_n1_eq_0 {w : Word} (h : n1Field w = 0x0) : decodeWord w = decodeGroup0 w := by
  simp [decodeWord, h]

theorem decodeWord_of_n1_eq_1 {w : Word} (h : n1Field w = 0x1) : decodeWord w = .ok (.jpNnn (nnnField w)) := by
  simp [decodeWord, h]

theorem decodeWord_of_n1_eq_2 {w : Word} (h : n1Field w = 0x2) : decodeWord w = .ok (.callNnn (nnnField w)) := by
  simp [decodeWord, h]

theorem decodeWord_of_n1_eq_3 {w : Word} (h : n1Field w = 0x3) :
    decodeWord w = .ok (.seVxNn (xField w) (nnField w)) := by
  simp [decodeWord, h]

theorem decodeWord_of_n1_eq_4 {w : Word} (h : n1Field w = 0x4) :
    decodeWord w = .ok (.sneVxNn (xField w) (nnField w)) := by
  simp [decodeWord, h]

theorem decodeWord_of_n1_eq_5 {w : Word} (h : n1Field w = 0x5) : decodeWord w = decodeXY0 .seVxVy w := by
  simp [decodeWord, h]

theorem decodeWord_of_n1_eq_9 {w : Word} (h : n1Field w = 0x9) : decodeWord w = decodeXY0 .sneVxVy w := by
  simp [decodeWord, h]

theorem decodeWord_of_n1_eq_B {w : Word} (h : n1Field w = 0xB) : decodeWord w = .ok (.jpV0Nnn (nnnField w)) := by
  simp [decodeWord, h]

theorem decodeWord_of_n1_eq_C {w : Word} (h : n1Field w = 0xC) :
    decodeWord w = .ok (.rndVxNn (xField w) (nnField w)) := by
  simp [decodeWord, h]

theorem decodeWord_of_n1_eq_D {w : Word} (h : n1Field w = 0xD) :
    decodeWord w = .ok (.drwVxVyN (xField w) (yField w) (n4Field w)) := by
  simp [decodeWord, h]

theorem decodeWord_of_n1_eq_E {w : Word} (h : n1Field w = 0xE) : decodeWord w = decodeGroupE w := by
  simp [decodeWord, h]

/-! What it does inside a group (R75) -/

theorem decodeXY0_of_n4_eq_0 {w : Word} (ctor : Reg → Reg → Instr) (h : n4Field w = 0x0) :
    decodeXY0 ctor w = .ok (ctor (xField w) (yField w)) := by
  simp [decodeXY0, h]

theorem decodeGroup8_of_n4_eq_0 {w : Word} (h : n4Field w = 0x0) :
    decodeGroup8 w = .ok (.ldVxVy (xField w) (yField w)) := by
  simp [decodeGroup8, h]

theorem decodeGroup8_of_n4_eq_1 {w : Word} (h : n4Field w = 0x1) :
    decodeGroup8 w = .ok (.orVxVy (xField w) (yField w)) := by
  simp [decodeGroup8, h]

theorem decodeGroup8_of_n4_eq_2 {w : Word} (h : n4Field w = 0x2) :
    decodeGroup8 w = .ok (.andVxVy (xField w) (yField w)) := by
  simp [decodeGroup8, h]

theorem decodeGroup8_of_n4_eq_3 {w : Word} (h : n4Field w = 0x3) :
    decodeGroup8 w = .ok (.xorVxVy (xField w) (yField w)) := by
  simp [decodeGroup8, h]

theorem decodeGroup8_of_n4_eq_4 {w : Word} (h : n4Field w = 0x4) :
    decodeGroup8 w = .ok (.addVxVy (xField w) (yField w)) := by
  simp [decodeGroup8, h]

theorem decodeGroup8_of_n4_eq_5 {w : Word} (h : n4Field w = 0x5) :
    decodeGroup8 w = .ok (.subVxVy (xField w) (yField w)) := by
  simp [decodeGroup8, h]

theorem decodeGroup8_of_n4_eq_7 {w : Word} (h : n4Field w = 0x7) :
    decodeGroup8 w = .ok (.subnVxVy (xField w) (yField w)) := by
  simp [decodeGroup8, h]

theorem decodeGroupE_of_nn_eq_9E {w : Word} (h : nnField w = 0x9E) : decodeGroupE w = .ok (.skpVx (xField w)) := by
  simp [decodeGroupE, h]

theorem decodeGroupE_of_nn_eq_A1 {w : Word} (h : nnField w = 0xA1) : decodeGroupE w = .ok (.sknpVx (xField w)) := by
  simp [decodeGroupE, h]

theorem decodeGroupF_of_nn_eq_07 {w : Word} (h : nnField w = 0x07) : decodeGroupF w = .ok (.ldVxDt (xField w)) := by
  simp [decodeGroupF, h]

theorem decodeGroupF_of_nn_eq_0A {w : Word} (h : nnField w = 0x0A) : decodeGroupF w = .ok (.ldVxK (xField w)) := by
  simp [decodeGroupF, h]

theorem decodeGroupF_of_nn_eq_15 {w : Word} (h : nnField w = 0x15) : decodeGroupF w = .ok (.ldDtVx (xField w)) := by
  simp [decodeGroupF, h]

theorem decodeGroupF_of_nn_eq_18 {w : Word} (h : nnField w = 0x18) : decodeGroupF w = .ok (.ldStVx (xField w)) := by
  simp [decodeGroupF, h]

theorem decodeGroupF_of_nn_eq_33 {w : Word} (h : nnField w = 0x33) : decodeGroupF w = .ok (.ldBVx (xField w)) := by
  simp [decodeGroupF, h]

theorem decodeGroupF_of_nn_eq_55 {w : Word} (h : nnField w = 0x55) : decodeGroupF w = .ok (.ldMiVx (xField w)) := by
  simp [decodeGroupF, h]

theorem decodeGroupF_of_nn_eq_65 {w : Word} (h : nnField w = 0x65) : decodeGroupF w = .ok (.ldVxMi (xField w)) := by
  simp [decodeGroupF, h]

theorem nibble_cases : ∀ g : Nibble, g = 0x0 ∨ g = 0x1 ∨ g = 0x2 ∨ g = 0x3 ∨ g = 0x4 ∨ g = 0x5 ∨ g = 0x6 ∨ g = 0x7 ∨
    g = 0x8 ∨ g = 0x9 ∨ g = 0xA ∨ g = 0xB ∨ g = 0xC ∨ g = 0xD ∨ g = 0xE ∨ g = 0xF := by
  decide

/-! Decoding an encoded instruction -/

theorem decodeWord_encodeWord (i : Instr) : decodeWord (encodeWord i) = .ok i := by
  cases i
  case cls | ret => decide +kernel
  all_goals simp [encodeWord, decodeWord, decodeXY0, decodeGroup8, decodeGroupE, decodeGroupF]

theorem wordOfBytes_of_wordBytes (w : Word) : wordOfBytes (w.extractLsb' 8 8) (w.extractLsb' 0 8) = w :=
  BitVec.extractLsb'_append_extractLsb' (w := 8) (len := 8)

/-- Settles O1: the two bytes of a word are put together to the word again, whose fields are the operands. -/
theorem encodedInstructionDecodesToItself : Obligations.EncodedInstructionDecodesToItself := by
  intro i rest _
  simp only [encode, wordBytes, List.cons_append, List.nil_append, decode, wordOfBytes_of_wordBytes,
    decodeWord_encodeWord]

/-! Encoding a decoded instruction, group by group -/

/-- What the decoder may answer on `w`: an instruction whose word is `w`, or that `w` is illegal. -/
def FaithfulTo (w : Word) : Except DecodeError Instr → Prop
  | .ok i => encodeWord i = w
  | .error e => e = .illegal w

theorem faithfulTo_decodeGroup0 (w : Word) : FaithfulTo w (decodeGroup0 w) := by
  unfold decodeGroup0
  split_ifs with hcls hret
  · exact hcls.symm
  · exact hret.symm
  · rfl

theorem faithfulTo_decodeXY0 {ctor : Reg → Reg → Instr} {w : Word} {g : Nibble} (hg : n1Field w = g)
    (hctor : ∀ x y, encodeWord (ctor x y) = wordXyn g x y 0x0) : FaithfulTo w (decodeXY0 ctor w) := by
  unfold decodeXY0
  split_ifs with h0
  · exact (hctor _ _).trans (wordXyn_fields hg h0)
  · rfl

theorem faithfulTo_decodeGroup8 {w : Word} (hg : n1Field w = 0x8) : FaithfulTo w (decodeGroup8 w) := by
  unfold decodeGroup8
  split_ifs with h0 h1 h2 h3 h4 h5 h6 h7 hE
  · exact wordXyn_fields hg h0
  · exact wordXyn_fields hg h1
  · exact wordXyn_fields hg h2
  · exact wordXyn_fields hg h3
  · exact wordXyn_fields hg h4
  · exact wordXyn_fields hg h5
  · exact wordXyn_fields hg h6
  · exact wordXyn_fields hg h7
  · exact wordXyn_fields hg hE
  · rfl

theorem faithfulTo_decodeGroupE {w : Word} (hg : n1Field w = 0xE) : FaithfulTo w (decodeGroupE w) := by
  unfold decodeGroupE
  split_ifs with h9E hA1
  · exact wordXnn_fields hg h9E
  · exact wordXnn_fields hg hA1
  · rfl

theorem faithfulTo_decodeGroupF {w : Word} (hg : n1Field w = 0xF) : FaithfulTo w (decodeGroupF w) := by
  unfold decodeGroupF
  split_ifs with h07 h0A h15 h18 h1E h29 h33 h55 h65
  · exact wordXnn_fields hg h07
  · exact wordXnn_fields hg h0A
  · exact wordXnn_fields hg h15
  · exact wordXnn_fields hg h18
  · exact wordXnn_fields hg h1E
  · exact wordXnn_fields hg h29
  · exact wordXnn_fields hg h33
  · exact wordXnn_fields hg h55
  · exact wordXnn_fields hg h65
  · rfl

theorem faithfulTo_decodeWord (w : Word) : FaithfulTo w (decodeWord w) := by
  rcases nibble_cases (n1Field w) with h0 | h1 | h2 | h3 | h4 | h5 | h6 | h7 | h8 | h9 | hA | hB | hC | hD | hE | hF
  · rw [decodeWord_of_n1_eq_0 h0]
    exact faithfulTo_decodeGroup0 w
  · rw [decodeWord_of_n1_eq_1 h1]
    exact wordNnn_fields h1
  · rw [decodeWord_of_n1_eq_2 h2]
    exact wordNnn_fields h2
  · rw [decodeWord_of_n1_eq_3 h3]
    exact wordXnn_fields h3 rfl
  · rw [decodeWord_of_n1_eq_4 h4]
    exact wordXnn_fields h4 rfl
  · rw [decodeWord_of_n1_eq_5 h5]
    exact faithfulTo_decodeXY0 h5 fun _ _ => rfl
  · rw [decodeWord_of_n1_eq_6 h6]
    exact wordXnn_fields h6 rfl
  · rw [decodeWord_of_n1_eq_7 h7]
    exact wordXnn_fields h7 rfl
  · rw [decodeWord_of_n1_eq_8 h8]
    exact faithfulTo_decodeGroup8 h8
  · rw [decodeWord_of_n1_eq_9 h9]
    exact faithfulTo_decodeXY0 h9 fun _ _ => rfl
  · rw [decodeWord_of_n1_eq_A hA]
    exact wordNnn_fields hA
  · rw [decodeWord_of_n1_eq_B hB]
    exact wordNnn_fields hB
  · rw [decodeWord_of_n1_eq_C hC]
    exact wordXnn_fields hC rfl
  · rw [decodeWord_of_n1_eq_D hD]
    exact wordXyn_fields hD rfl
  · rw [decodeWord_of_n1_eq_E hE]
    exact faithfulTo_decodeGroupE hE
  · rw [decodeWord_of_n1_eq_F hF]
    exact faithfulTo_decodeGroupF hF

theorem encodeWord_of_decodeWord {w : Word} {i : Instr} (h : decodeWord w = .ok i) : encodeWord i = w := by
  have hw := faithfulTo_decodeWord w
  rwa [h] at hw

/-- The decoder refuses a word only as illegal, by its own bits. -/
theorem eq_illegal_of_decodeWord_eq_error {w : Word} {e : DecodeError} (h : decodeWord w = .error e) :
    e = .illegal w := by
  have hw := faithfulTo_decodeWord w
  rwa [h] at hw

/-! The rows of the opcode map (R74) -/

theorem encodesInRow : ∀ i : Instr, Laws.EncodesInRow.Statement i
  | .cls => Laws.EncodesInRow.cls
  | .ret => Laws.EncodesInRow.ret
  | .jpNnn nnn => Laws.EncodesInRow.jpNnn nnn
  | .callNnn nnn => Laws.EncodesInRow.callNnn nnn
  | .seVxNn x nn => Laws.EncodesInRow.seVxNn x nn
  | .sneVxNn x nn => Laws.EncodesInRow.sneVxNn x nn
  | .seVxVy x y => Laws.EncodesInRow.seVxVy x y
  | .ldVxNn x nn => Laws.EncodesInRow.ldVxNn x nn
  | .addVxNn x nn => Laws.EncodesInRow.addVxNn x nn
  | .ldVxVy x y => Laws.EncodesInRow.ldVxVy x y
  | .orVxVy x y => Laws.EncodesInRow.orVxVy x y
  | .andVxVy x y => Laws.EncodesInRow.andVxVy x y
  | .xorVxVy x y => Laws.EncodesInRow.xorVxVy x y
  | .addVxVy x y => Laws.EncodesInRow.addVxVy x y
  | .subVxVy x y => Laws.EncodesInRow.subVxVy x y
  | .shrVx x y => Laws.EncodesInRow.shrVx x y
  | .subnVxVy x y => Laws.EncodesInRow.subnVxVy x y
  | .shlVx x y => Laws.EncodesInRow.shlVx x y
  | .sneVxVy x y => Laws.EncodesInRow.sneVxVy x y
  | .ldINnn nnn => Laws.EncodesInRow.ldINnn nnn
  | .jpV0Nnn nnn => Laws.EncodesInRow.jpV0Nnn nnn
  | .rndVxNn x nn => Laws.EncodesInRow.rndVxNn x nn
  | .drwVxVyN x y n => Laws.EncodesInRow.drwVxVyN x y n
  | .skpVx x => Laws.EncodesInRow.skpVx x
  | .sknpVx x => Laws.EncodesInRow.sknpVx x
  | .ldVxDt x => Laws.EncodesInRow.ldVxDt x
  | .ldVxK x => Laws.EncodesInRow.ldVxK x
  | .ldDtVx x => Laws.EncodesInRow.ldDtVx x
  | .ldStVx x => Laws.EncodesInRow.ldStVx x
  | .addIVx x => Laws.EncodesInRow.addIVx x
  | .ldFVx x => Laws.EncodesInRow.ldFVx x
  | .ldBVx x => Laws.EncodesInRow.ldBVx x
  | .ldMiVx x => Laws.EncodesInRow.ldMiVx x
  | .ldVxMi x => Laws.EncodesInRow.ldVxMi x

/-- A field that a mask keeps whole is the field of the pattern. -/
theorem extractLsb'_of_and_eq {w m p : Word} {start len : Nat} (h : w &&& m = p)
    (hm : m.extractLsb' start len = BitVec.allOnes len) : w.extractLsb' start len = p.extractLsb' start len := by
  rw [← h, BitVec.extractLsb'_and, hm, BitVec.and_allOnes]

theorem decodeWord_of_matchesWord {w : Word} {r : OpcodeRow} (hr : r ∈ opcodeRows) (h : r.matchesWord w = true) :
    ∃ i, decodeWord w = .ok i ∧ i.row = r := by
  have hand : w &&& r.mask = r.pattern := by simpa [OpcodeRow.matchesWord] using h
  have hn1 : n1Field r.mask = 0xF → n1Field w = n1Field r.pattern := extractLsb'_of_and_eq hand
  have hn4 : n4Field r.mask = 0xF → n4Field w = n4Field r.pattern := extractLsb'_of_and_eq hand
  have hnn : nnField r.mask = 0xFF → nnField w = nnField r.pattern := extractLsb'_of_and_eq hand
  have hw : r.mask = BitVec.allOnes 16 → w = r.pattern := fun hm => by rwa [hm, BitVec.and_allOnes] at hand
  simp only [opcodeRows, opcodeRowsLow, opcodeRowsMid, opcodeRowsHigh, List.cons_append, List.nil_append,
    List.mem_cons, List.not_mem_nil, or_false] at hr
  rcases hr with rfl | rfl | rfl | rfl | rfl | rfl | rfl | rfl | rfl | rfl | rfl | rfl | rfl | rfl | rfl | rfl | rfl |
    rfl | rfl | rfl | rfl | rfl | rfl | rfl | rfl | rfl | rfl | rfl | rfl | rfl | rfl | rfl | rfl | rfl
  · exact ⟨.cls, hw rfl ▸ rfl, rfl⟩
  · exact ⟨.ret, hw rfl ▸ rfl, rfl⟩
  · exact ⟨_, decodeWord_of_n1_eq_1 (hn1 rfl), rfl⟩
  · exact ⟨_, decodeWord_of_n1_eq_2 (hn1 rfl), rfl⟩
  · exact ⟨_, decodeWord_of_n1_eq_3 (hn1 rfl), rfl⟩
  · exact ⟨_, decodeWord_of_n1_eq_4 (hn1 rfl), rfl⟩
  · exact ⟨_, (decodeWord_of_n1_eq_5 (hn1 rfl)).trans (decodeXY0_of_n4_eq_0 _ (hn4 rfl)), rfl⟩
  · exact ⟨_, decodeWord_of_n1_eq_6 (hn1 rfl), rfl⟩
  · exact ⟨_, decodeWord_of_n1_eq_7 (hn1 rfl), rfl⟩
  · exact ⟨_, (decodeWord_of_n1_eq_8 (hn1 rfl)).trans (decodeGroup8_of_n4_eq_0 (hn4 rfl)), rfl⟩
  · exact ⟨_, (decodeWord_of_n1_eq_8 (hn1 rfl)).trans (decodeGroup8_of_n4_eq_1 (hn4 rfl)), rfl⟩
  · exact ⟨_, (decodeWord_of_n1_eq_8 (hn1 rfl)).trans (decodeGroup8_of_n4_eq_2 (hn4 rfl)), rfl⟩
  · exact ⟨_, (decodeWord_of_n1_eq_8 (hn1 rfl)).trans (decodeGroup8_of_n4_eq_3 (hn4 rfl)), rfl⟩
  · exact ⟨_, (decodeWord_of_n1_eq_8 (hn1 rfl)).trans (decodeGroup8_of_n4_eq_4 (hn4 rfl)), rfl⟩
  · exact ⟨_, (decodeWord_of_n1_eq_8 (hn1 rfl)).trans (decodeGroup8_of_n4_eq_5 (hn4 rfl)), rfl⟩
  · exact ⟨_, (decodeWord_of_n1_eq_8 (hn1 rfl)).trans (decodeGroup8_of_n4_eq_6 (hn4 rfl)), rfl⟩
  · exact ⟨_, (decodeWord_of_n1_eq_8 (hn1 rfl)).trans (decodeGroup8_of_n4_eq_7 (hn4 rfl)), rfl⟩
  · exact ⟨_, (decodeWord_of_n1_eq_8 (hn1 rfl)).trans (decodeGroup8_of_n4_eq_E (hn4 rfl)), rfl⟩
  · exact ⟨_, (decodeWord_of_n1_eq_9 (hn1 rfl)).trans (decodeXY0_of_n4_eq_0 _ (hn4 rfl)), rfl⟩
  · exact ⟨_, decodeWord_of_n1_eq_A (hn1 rfl), rfl⟩
  · exact ⟨_, decodeWord_of_n1_eq_B (hn1 rfl), rfl⟩
  · exact ⟨_, decodeWord_of_n1_eq_C (hn1 rfl), rfl⟩
  · exact ⟨_, decodeWord_of_n1_eq_D (hn1 rfl), rfl⟩
  · exact ⟨_, (decodeWord_of_n1_eq_E (hn1 rfl)).trans (decodeGroupE_of_nn_eq_9E (hnn rfl)), rfl⟩
  · exact ⟨_, (decodeWord_of_n1_eq_E (hn1 rfl)).trans (decodeGroupE_of_nn_eq_A1 (hnn rfl)), rfl⟩
  · exact ⟨_, (decodeWord_of_n1_eq_F (hn1 rfl)).trans (decodeGroupF_of_nn_eq_07 (hnn rfl)), rfl⟩
  · exact ⟨_, (decodeWord_of_n1_eq_F (hn1 rfl)).trans (decodeGroupF_of_nn_eq_0A (hnn rfl)), rfl⟩
  · exact ⟨_, (decodeWord_of_n1_eq_F (hn1 rfl)).trans (decodeGroupF_of_nn_eq_15 (hnn rfl)), rfl⟩
  · exact ⟨_, (decodeWord_of_n1_eq_F (hn1 rfl)).trans (decodeGroupF_of_nn_eq_18 (hnn rfl)), rfl⟩
  · exact ⟨_, (decodeWord_of_n1_eq_F (hn1 rfl)).trans (decodeGroupF_of_nn_eq_1E (hnn rfl)), rfl⟩
  · exact ⟨_, (decodeWord_of_n1_eq_F (hn1 rfl)).trans (decodeGroupF_of_nn_eq_29 (hnn rfl)), rfl⟩
  · exact ⟨_, (decodeWord_of_n1_eq_F (hn1 rfl)).trans (decodeGroupF_of_nn_eq_33 (hnn rfl)), rfl⟩
  · exact ⟨_, (decodeWord_of_n1_eq_F (hn1 rfl)).trans (decodeGroupF_of_nn_eq_55 (hnn rfl)), rfl⟩
  · exact ⟨_, (decodeWord_of_n1_eq_F (hn1 rfl)).trans (decodeGroupF_of_nn_eq_65 (hnn rfl)), rfl⟩

theorem legalWord_iff {w : Word} : legalWord w = true ↔ ∃ i, decodeWord w = .ok i := by
  constructor
  · intro h
    obtain ⟨r, hr, hmatch⟩ := List.any_eq_true.1 h
    obtain ⟨i, hi, -⟩ := decodeWord_of_matchesWord hr hmatch
    exact ⟨i, hi⟩
  · rintro ⟨i, hi⟩
    obtain ⟨hmatch, hrow, -⟩ := encodesInRow i
    exact List.any_eq_true.2 ⟨i.row, hrow, encodeWord_of_decodeWord hi ▸ hmatch⟩

theorem decodeWord_eq_illegal_iff {w : Word} : decodeWord w = .error (.illegal w) ↔ legalWord w = false := by
  rw [← Bool.not_eq_true, legalWord_iff]
  rcases hdec : decodeWord w with e | i
  · simp [eq_illegal_of_decodeWord_eq_error hdec]
  · simp

/-- Settles O2: a decoded word is its instruction's encoding, a row's word has the fields the decoder looks for, and
what is refused matches no row. -/
theorem decoderFollowsTheOpcodeMap : Obligations.DecoderFollowsTheOpcodeMap := by
  refine fun w => ⟨fun i hi => ?_, fun r hr => decodeWord_of_matchesWord hr, decodeWord_eq_illegal_iff.2⟩
  obtain ⟨hmatch, hrow, -⟩ := encodesInRow i
  have henc := encodeWord_of_decodeWord hi
  exact ⟨hrow, henc ▸ hmatch, henc⟩

/-- Settles O3: the decoder answers one instruction, whose row each of the two is. -/
theorem opcodeRowsAreDisjoint : Obligations.OpcodeRowsAreDisjoint := by
  intro w r hr q hq hrw hqw
  obtain ⟨i, hi, rfl⟩ := decodeWord_of_matchesWord hr hrw
  obtain ⟨j, hj, rfl⟩ := decodeWord_of_matchesWord hq hqw
  rw [Except.ok.inj (hi.symm.trans hj)]

/-- Settles O4, by running the decoder on the five words. -/
theorem wordsOfEachFamilyDecode : Obligations.WordsOfEachFamilyDecode := by
  unfold Obligations.WordsOfEachFamilyDecode
  decide +kernel

end Sys2Proof
end

section
/-! What each of the other instructions answers (spec/41_control_flow.md to 45_keypad_timer.md), the parts of the state
that an instruction can change, and the tables of what each may write (spec/10_state.md R20, R24). -/

namespace Sys2Proof.Machine

/-! What each instruction answers -/

theorem exec_ret_of_pos {s : State} (h : 0 < s.sp.val) :
    exec .ret s = .next { s with
      sp := ⟨s.sp.val - 1, by have := s.sp.isLt; omega⟩
      pc := s.stack[s.sp.val - 1]'(by have := s.sp.isLt; omega) } := by
  simp only [exec, execRet, State.pop_of_pos h]
  rfl

theorem exec_ret_of_empty {s : State} (h : s.sp.val = 0) : exec .ret s = .next (s.takeError .stackUnderflow) := by
  simp only [exec, execRet, State.pop_of_empty h]

theorem exec_jpNnn (nnn : Addr) (s : State) : exec (.jpNnn nnn) s = .next (s.setPc (zextAddr nnn)) := rfl

theorem exec_callNnn_of_lt (nnn : Addr) {s : State} (h : s.sp.val < 16) :
    exec (.callNnn nnn) s = .next { s with
      stack := s.stack.set s.sp.val s.pc h
      sp := ⟨s.sp.val + 1, Nat.succ_lt_succ h⟩
      pc := zextAddr nnn } := by
  simp only [exec, execCallNnn, State.push_of_lt s.pc h]
  rfl

theorem exec_callNnn_of_full (nnn : Addr) {s : State} (h : s.sp.val = 16) :
    exec (.callNnn nnn) s = .next (s.takeError .stackOverflow) := by
  simp only [exec, execCallNnn, State.push_of_full s.pc h]

/-- The two ways of a return. -/
theorem eq_of_exec_ret {s t : State} (h : exec .ret s = .next t) :
    (s.sp.val = 0 ∧ t = s.takeError .stackUnderflow) ∨ ∃ hsp : 0 < s.sp.val, t = { s with
      sp := ⟨s.sp.val - 1, by have := s.sp.isLt; omega⟩
      pc := s.stack[s.sp.val - 1]'(by have := s.sp.isLt; omega) } := by
  rcases Nat.eq_zero_or_pos s.sp.val with hsp | hsp
  · exact .inl ⟨hsp, Host.Outcome.next.inj (h.symm.trans (exec_ret_of_empty hsp))⟩
  · exact .inr ⟨hsp, Host.Outcome.next.inj (h.symm.trans (exec_ret_of_pos hsp))⟩

/-- The two ways of a call. -/
theorem eq_of_exec_callNnn {nnn : Addr} {s t : State} (h : exec (.callNnn nnn) s = .next t) :
    (s.sp.val = 16 ∧ t = s.takeError .stackOverflow) ∨ ∃ hsp : s.sp.val < 16, t = { s with
      stack := s.stack.set s.sp.val s.pc hsp
      sp := ⟨s.sp.val + 1, Nat.succ_lt_succ hsp⟩
      pc := zextAddr nnn } := by
  rcases Nat.lt_or_eq_of_le (Nat.le_of_lt_succ s.sp.isLt) with hsp | hsp
  · exact .inr ⟨hsp, Host.Outcome.next.inj (h.symm.trans (exec_callNnn_of_lt nnn hsp))⟩
  · exact .inl ⟨hsp, Host.Outcome.next.inj (h.symm.trans (exec_callNnn_of_full nnn hsp))⟩

theorem exec_seVxNn (x : Reg) (nn : Byte) (s : State) :
    exec (.seVxNn x nn) s = .next (s.skipIf (s.reg x == nn)) := rfl

theorem exec_sneVxNn (x : Reg) (nn : Byte) (s : State) :
    exec (.sneVxNn x nn) s = .next (s.skipIf (s.reg x != nn)) := rfl

theorem exec_seVxVy (x y : Reg) (s : State) :
    exec (.seVxVy x y) s = .next (s.skipIf (s.reg x == s.reg y)) := rfl

theorem exec_sneVxVy (x y : Reg) (s : State) :
    exec (.sneVxVy x y) s = .next (s.skipIf (s.reg x != s.reg y)) := rfl

theorem exec_jpV0Nnn (nnn : Addr) (s : State) :
    exec (.jpV0Nnn nnn) s = .next (s.setPc (zextAddr nnn + zextByte (s.reg regV0))) := rfl

theorem exec_ldVxVy (x y : Reg) (s : State) : exec (.ldVxVy x y) s = .next (s.setReg x (s.reg y)) := rfl

theorem exec_orVxVy (x y : Reg) (s : State) : exec (.orVxVy x y) s = .next (s.setReg x (s.reg x ||| s.reg y)) := rfl

theorem exec_andVxVy (x y : Reg) (s : State) : exec (.andVxVy x y) s = .next (s.setReg x (s.reg x &&& s.reg y)) := rfl

theorem exec_xorVxVy (x y : Reg) (s : State) : exec (.xorVxVy x y) s = .next (s.setReg x (s.reg x ^^^ s.reg y)) := rfl

theorem exec_addVxVy (x y : Reg) (s : State) : exec (.addVxVy x y) s =
    .next (s.setResultThenFlag x (s.reg x + s.reg y) (carryOut (s.reg x) (s.reg y))) := rfl

theorem exec_subVxVy (x y : Reg) (s : State) : exec (.subVxVy x y) s =
    .next (s.setResultThenFlag x (s.reg x - s.reg y) (noBorrow (s.reg x) (s.reg y))) := rfl

theorem exec_subnVxVy (x y : Reg) (s : State) : exec (.subnVxVy x y) s =
    .next (s.setResultThenFlag x (s.reg y - s.reg x) (noBorrow (s.reg y) (s.reg x))) := rfl

theorem exec_rndVxNn (x : Reg) (nn : Byte) (s : State) :
    exec (.rndVxNn x nn) s = .next (s.draw8.2.setReg x (s.draw8.1 &&& nn)) := rfl

theorem exec_drwVxVyN (x y : Reg) (n : Nibble) (s : State) : exec (.drwVxVyN x y n) s =
    .next ((s.setFb (s.spriteBlit x y n).fb).setFlag (s.spriteBlit x y n).collided) := rfl

theorem exec_skpVx (x : Reg) (s : State) :
    exec (.skpVx x) s = .next (s.skipIf (s.keyDown (keyIndex (s.reg x)))) := rfl

theorem exec_sknpVx (x : Reg) (s : State) :
    exec (.sknpVx x) s = .next (s.skipIf (!s.keyDown (keyIndex (s.reg x)))) := rfl

theorem exec_ldVxDt (x : Reg) (s : State) : exec (.ldVxDt x) s = .next (s.setReg x s.dt) := rfl

theorem exec_ldVxK_of_some (x : Reg) {s : State} {k : Fin 16} (h : s.lowestKey = some k) :
    exec (.ldVxK x) s = .next (s.setReg x (keyByte k)) := by
  simp only [exec, execLdVxK, h]

theorem exec_ldVxK_of_none (x : Reg) {s : State} (h : s.lowestKey = none) :
    exec (.ldVxK x) s = .next (s.setPc (s.pc - 2)) := by
  simp only [exec, execLdVxK, h]

/-- The two ways of the wait for a key. -/
theorem eq_of_exec_ldVxK {x : Reg} {s t : State} (h : exec (.ldVxK x) s = .next t) :
    (s.lowestKey = none ∧ t = s.setPc (s.pc - 2)) ∨ ∃ k, s.lowestKey = some k ∧ t = s.setReg x (keyByte k) := by
  rcases hkey : s.lowestKey with _ | k
  · exact .inl ⟨rfl, Host.Outcome.next.inj (h.symm.trans (exec_ldVxK_of_none x hkey))⟩
  · exact .inr ⟨k, rfl, Host.Outcome.next.inj (h.symm.trans (exec_ldVxK_of_some x hkey))⟩

theorem exec_ldDtVx (x : Reg) (s : State) : exec (.ldDtVx x) s = .next (s.setDt (s.reg x)) := rfl

theorem exec_ldStVx (x : Reg) (s : State) : exec (.ldStVx x) s = .next (s.setSt (s.reg x)) := rfl

theorem exec_ldBVx (x : Reg) (s : State) :
    exec (.ldBVx x) s = .next (s.writeBytes s.i (bcdDigits (s.reg x))) := rfl

theorem exec_ldMiVx (x : Reg) (s : State) :
    exec (.ldMiVx x) s = .next (s.writeBytes s.i ((regsUpTo x).map s.reg)) := rfl

theorem exec_ldVxMi (x : Reg) (s : State) :
    exec (.ldVxMi x) s = .next (s.setRegs (regsUpTo x) (s.readBytes s.i (x.val + 1))) := rfl

/-! The parts of the state an instruction can change -/

/-- How an instruction acts on the state it executes in, by the parts it changes. -/
inductive Effect (s : State) : Instr → State → Prop
  | regs (i : Instr) (v : Vector Byte 16) : Effect s i { s with v := v }
  | pc (i : Instr) (w : Word) : Effect s i { s with pc := w }
  | index {i : Instr} (w : Word) (hi : (∃ nnn, i = .ldINnn nnn) ∨ ∃ x, i = .addIVx x ∨ i = .ldFVx x) :
      Effect s i { s with i := w }
  | delay (x : Reg) (b : Byte) : Effect s (.ldDtVx x) { s with dt := b }
  | sound (x : Reg) (b : Byte) : Effect s (.ldStVx x) { s with st := b }
  | clear (fb : FrameBuffer) : Effect s .cls { s with fb := fb }
  | draw (x y : Reg) (n : Nibble) (fb : FrameBuffer) (v : Vector Byte 16) :
      Effect s (.drwVxVyN x y n) { s with fb := fb, v := v }
  | random (x : Reg) (nn : Byte) (v : Vector Byte 16) :
      Effect s (.rndVxNn x nn) { s with v := v, draws := s.draws + 1 }
  | store {i : Instr} (a : Word) (bs : List Byte) (hi : ∃ x, i = .ldBVx x ∨ i = .ldMiVx x) :
      Effect s i (s.writeBytes a bs)
  | call (nnn : Addr) (h : s.sp.val < 16) : Effect s (.callNnn nnn) { s with
      stack := s.stack.set s.sp.val s.pc h, sp := ⟨s.sp.val + 1, Nat.succ_lt_succ h⟩, pc := zextAddr nnn }
  | overflow (nnn : Addr) (h : s.sp.val = 16) : Effect s (.callNnn nnn) (s.takeError .stackOverflow)
  | ret (w : Word) (h : 0 < s.sp.val) :
      Effect s .ret { s with sp := ⟨s.sp.val - 1, by have := s.sp.isLt; omega⟩, pc := w }
  | underflow (h : s.sp.val = 0) : Effect s .ret (s.takeError .stackUnderflow)

theorem effect_skipIf (s : State) (i : Instr) (c : Bool) : Effect s i (s.skipIf c) := by
  cases c
  · exact .pc i s.pc
  · exact .pc i (s.pc + 2)

theorem effect_setRegs (s : State) (i : Instr) (rs : List Reg) (bs : List Byte) : Effect s i (s.setRegs rs bs) := by
  rw [State.setRegs_eq]
  exact .regs i _

/-- Every instruction answers a next state, and acts in one of the ways listed. -/
theorem exec_next_effect (i : Instr) (s : State) : ∃ t, exec i s = .next t ∧ Effect s i t := by
  cases i
  case ret =>
    rcases Nat.eq_zero_or_pos s.sp.val with h | h
    · exact ⟨_, exec_ret_of_empty h, .underflow h⟩
    · exact ⟨_, exec_ret_of_pos h, .ret _ h⟩
  case callNnn nnn =>
    rcases Nat.lt_or_eq_of_le (Nat.le_of_lt_succ s.sp.isLt) with h | h
    · exact ⟨_, exec_callNnn_of_lt nnn h, .call nnn h⟩
    · exact ⟨_, exec_callNnn_of_full nnn h, .overflow nnn h⟩
  case ldVxK x =>
    rcases h : s.lowestKey with _ | k
    · exact ⟨_, exec_ldVxK_of_none x h, .pc _ _⟩
    · exact ⟨_, exec_ldVxK_of_some x h, .regs _ _⟩
  case cls => exact ⟨_, rfl, .clear _⟩
  case jpNnn | jpV0Nnn => exact ⟨_, rfl, .pc _ _⟩
  case seVxNn | sneVxNn | seVxVy | sneVxVy | skpVx | sknpVx => exact ⟨_, rfl, effect_skipIf s _ _⟩
  case ldINnn nnn => exact ⟨_, rfl, .index _ (.inl ⟨nnn, rfl⟩)⟩
  case addIVx x => exact ⟨_, rfl, .index _ (.inr ⟨x, .inl rfl⟩)⟩
  case ldFVx x => exact ⟨_, rfl, .index _ (.inr ⟨x, .inr rfl⟩)⟩
  case rndVxNn x nn => exact ⟨_, rfl, .random x nn _⟩
  case drwVxVyN x y n => exact ⟨_, rfl, .draw x y n _ _⟩
  case ldDtVx x => exact ⟨_, rfl, .delay x _⟩
  case ldStVx x => exact ⟨_, rfl, .sound x _⟩
  case ldBVx x => exact ⟨_, rfl, .store _ _ ⟨x, .inl rfl⟩⟩
  case ldMiVx x => exact ⟨_, rfl, .store _ _ ⟨x, .inr rfl⟩⟩
  case ldVxMi => exact ⟨_, rfl, effect_setRegs s _ _ _⟩
  all_goals exact ⟨_, rfl, .regs _ _⟩

theorem effect_of_exec {i : Instr} {s t : State} (h : exec i s = .next t) : Effect s i t := by
  obtain ⟨t', ht', heff⟩ := exec_next_effect i s
  rw [h] at ht'
  cases ht'
  exact heff

section
variable {s t : State} {i : Instr} (h : Effect s i t)
include h

theorem Effect.key : t.key = s.key := by
  cases h with
  | store => exact State.writeBytes_key s _ _
  | _ => rfl

theorem Effect.index_of_ne (hne : t.i ≠ s.i) : (∃ nnn, i = .ldINnn nnn) ∨ ∃ x, i = .addIVx x ∨ i = .ldFVx x := by
  cases h with
  | index _ hi => exact hi
  | store => exact absurd (State.writeBytes_i s _ _) hne
  | _ => exact absurd rfl hne

theorem Effect.callNnn_of_stack_ne (hne : t.stack ≠ s.stack) : ∃ nnn, i = .callNnn nnn := by
  cases h with
  | call nnn => exact ⟨nnn, rfl⟩
  | store => exact absurd (State.writeBytes_stack s _ _) hne
  | _ => exact absurd rfl hne

theorem Effect.ret_or_callNnn_of_sp_ne (hne : t.sp ≠ s.sp) : i = .ret ∨ ∃ nnn, i = .callNnn nnn := by
  cases h with
  | ret => exact .inl rfl
  | call nnn => exact .inr ⟨nnn, rfl⟩
  | store => exact absurd (State.writeBytes_sp s _ _) hne
  | _ => exact absurd rfl hne

theorem Effect.ldDtVx_of_dt_ne (hne : t.dt ≠ s.dt) : ∃ x, i = .ldDtVx x := by
  cases h with
  | delay x => exact ⟨x, rfl⟩
  | store => exact absurd (State.writeBytes_dt s _ _) hne
  | _ => exact absurd rfl hne

theorem Effect.ldStVx_of_st_ne (hne : t.st ≠ s.st) : ∃ x, i = .ldStVx x := by
  cases h with
  | sound x => exact ⟨x, rfl⟩
  | store => exact absurd (State.writeBytes_st s _ _) hne
  | _ => exact absurd rfl hne

theorem Effect.cls_or_drwVxVyN_of_fb_ne (hne : t.fb ≠ s.fb) : i = .cls ∨ ∃ x y n, i = .drwVxVyN x y n := by
  cases h with
  | clear => exact .inl rfl
  | draw x y n => exact .inr ⟨x, y, n, rfl⟩
  | store => exact absurd (State.writeBytes_fb s _ _) hne
  | _ => exact absurd rfl hne

theorem Effect.store_of_mem_ne (hne : t.mem ≠ s.mem) : ∃ x, i = .ldBVx x ∨ i = .ldMiVx x := by
  cases h with
  | store _ _ hi => exact hi
  | _ => exact absurd rfl hne

theorem Effect.rndVxNn_of_draws_ne (hne : t.draws ≠ s.draws) : ∃ x nn, i = .rndVxNn x nn := by
  cases h with
  | random x nn => exact ⟨x, nn, rfl⟩
  | store => exact absurd (State.writeBytes_draws s _ _) hne
  | _ => exact absurd rfl hne

/-- The run state and the errors change together, on the two error paths of the stack alone. -/
theorem Effect.run : (t.runState = s.runState ∧ t.errors = s.errors) ∨
    ((∃ nnn, i = .callNnn nnn) ∧ s.sp.val = 16 ∧ t.runState = .finished ∧ t.errors = .stackOverflow :: s.errors) ∨
    (i = .ret ∧ s.sp.val = 0 ∧ t.runState = .finished ∧ t.errors = .stackUnderflow :: s.errors) := by
  cases h with
  | overflow nnn hsp => exact .inr (.inl ⟨⟨nnn, rfl⟩, hsp, rfl, rfl⟩)
  | underflow hsp => exact .inr (.inr ⟨rfl, hsp, rfl, rfl⟩)
  | store => exact .inl ⟨State.writeBytes_runState s _ _, State.writeBytes_errors s _ _⟩
  | _ => exact .inl ⟨rfl, rfl⟩

end

/-! `pc` and the registers after every instruction (R20, R24) -/

theorem exec_pc {i : Instr} {s t : State} (h : exec i s = .next t) : t.pc = pcAfter s i := by
  cases i
  case ret =>
    rcases eq_of_exec_ret h with ⟨hsp, rfl⟩ | ⟨hsp, rfl⟩
    · simp [pcAfter, hsp]
    · simp [pcAfter, hsp.ne']
  case callNnn nnn =>
    rcases eq_of_exec_callNnn h with ⟨hsp, rfl⟩ | ⟨hsp, rfl⟩
    · simp [pcAfter, hsp]
    · simp [pcAfter, hsp.ne, zextAddr]
  case ldVxK x =>
    rcases eq_of_exec_ldVxK h with ⟨hkey, rfl⟩ | ⟨k, hkey, rfl⟩
    · simp [pcAfter, State.lowestKey_eq_none.1 hkey]
    · have hdown : ∃ k, s.keyDown k = true := ⟨k, (State.lowestKey_eq_some hkey).1⟩
      simp [pcAfter, hdown]
  case seVxNn | sneVxNn | seVxVy | sneVxVy | skpVx | sknpVx =>
    cases h
    simp [pcAfter, State.skipIf_pc]
  case ldBVx | ldMiVx =>
    cases h
    exact State.writeBytes_pc s _ _
  case ldVxMi =>
    cases h
    exact (frame_setRegs s _ _).pc rfl
  all_goals
    cases h
    rfl

/-- Settles O13: `pc` is moved by the jumps, the stack, the skips and the waiting `FX0A` alone. -/
theorem pcAfterEveryInstruction : Obligations.PcAfterEveryInstruction :=
  fun _ _ _ => exec_pc

/-- Settles O14: registers are written by `setReg`, `setResultThenFlag`, `setFlag` and `setRegs` alone, each of which
keeps the others. -/
theorem registersWrittenByEachInstruction : Obligations.RegistersWrittenByEachInstruction := by
  intro i s t h r hr
  cases i
  case ret =>
    rcases eq_of_exec_ret h with ⟨-, rfl⟩ | ⟨-, rfl⟩
    · rfl
    · rfl
  case callNnn nnn =>
    rcases eq_of_exec_callNnn h with ⟨-, rfl⟩ | ⟨-, rfl⟩
    · rfl
    · rfl
  case seVxNn | sneVxNn | seVxVy | sneVxVy | skpVx | sknpVx =>
    cases h
    exact State.reg_skipIf s _ r
  case addVxVy | subVxVy | shrVx | subnVxVy | shlVx =>
    cases h
    exact (frame_setResultThenFlag s _ _ _).regs r hr
  case drwVxVyN x y n =>
    cases h
    exact (frame_setReg (s.setFb _) regVF _).regs r hr
  case ldVxMi =>
    cases h
    exact (frame_setRegs s _ _).regs r hr
  case ldBVx | ldMiVx =>
    cases h
    exact State.reg_writeBytes s _ _ r
  case ldVxK x =>
    rcases eq_of_exec_ldVxK h with ⟨-, rfl⟩ | ⟨k, -, rfl⟩
    · rfl
    · exact (frame_setReg s x _).regs r hr
  case cls | jpNnn | jpV0Nnn | ldINnn | addIVx | ldFVx | ldDtVx | ldStVx =>
    cases h
    rfl
  case rndVxNn x nn =>
    cases h
    exact (frame_setReg s.draw8.2 x _).regs r hr
  all_goals
    cases h
    exact (frame_setReg s _ _).regs r hr

end Sys2Proof.Machine
end

section
/-! The step (spec/40_step_cycle.md): what it answers from every state, what it reports, and what it leaves alone. -/

namespace Sys2Proof.Machine

/-! One equation for each way a step can go (R90 to R94) -/

theorem step_of_finished {s : State} (h : s.runState = .finished) : step s = .next s := by
  simp only [step, h]

theorem step_of_outOfBounds {s : State} (hrun : s.runState = .running) (hpc : 4094 < s.pc.toNat) :
    step s = .next s.takeOutOfBounds := by
  simp only [step, hrun, (State.pcOutOfBounds_iff s).2 hpc, if_true]

theorem step_of_illegal {s : State} (hrun : s.runState = .running) (hpc : s.pc.toNat ≤ 4094)
    (hillegal : legalWord (wordAtPc s) = false) : step s = .next s.takeDecodeError := by
  have hbound : ¬ s.pcOutOfBounds = true := (State.pcOutOfBounds_iff s).not.2 (by omega)
  simp only [step, hrun, hbound, Bool.false_eq_true, if_false, State.fetchWord_eq_wordAtPc hpc,
    decodeWord_eq_illegal_iff.2 hillegal]

theorem step_of_executes {s : State} {i : Instr} (h : Executes s i) : step s = exec i s.advance := by
  obtain ⟨hrun, hpc, hdec⟩ := h
  have hbound : ¬ s.pcOutOfBounds = true := (State.pcOutOfBounds_iff s).not.2 (by omega)
  simp only [step, hrun, hbound, Bool.false_eq_true, if_false, State.fetchWord_eq_wordAtPc hpc, hdec]

/-- Everything a step that answers `t` can have done. -/
theorem step_next_cases {s t : State} (h : step s = .next t) :
    (s.runState = .finished ∧ t = s) ∨
    (s.runState = .running ∧ 4094 < s.pc.toNat ∧ t = s.takeOutOfBounds) ∨
    (s.runState = .running ∧ s.pc.toNat ≤ 4094 ∧ legalWord (wordAtPc s) = false ∧ t = s.takeDecodeError) ∨
    (∃ i, Executes s i ∧ exec i s.advance = .next t) := by
  rcases step_cases s with ⟨hrun, hs⟩ | ⟨hrun, hpc, hs⟩ | ⟨hrun, hpc, ⟨e, he⟩, hs⟩ | ⟨i, hi, hs⟩
  · exact .inl ⟨hrun, Host.Outcome.next.inj (h.symm.trans hs)⟩
  · exact .inr (.inl ⟨hrun, hpc, Host.Outcome.next.inj (h.symm.trans hs)⟩)
  · have hillegal := decodeWord_eq_illegal_iff.1 (eq_illegal_of_decodeWord_eq_error he ▸ he)
    exact .inr (.inr (.inl ⟨hrun, hpc, hillegal, Host.Outcome.next.inj (h.symm.trans hs)⟩))
  · exact .inr (.inr (.inr ⟨i, hi, hs.symm.trans h⟩))

theorem pc_toNat_add_two {s : State} (h : s.pc.toNat ≤ 4094) : (s.pc + 2).toNat = s.pc.toNat + 2 := by
  have htwo : (2 : Word).toNat = 2 := rfl
  rw [BitVec.toNat_add, htwo]
  omega

/-- The `step` transaction answers the step's state with its run state and report. -/
theorem transact_step {s t : State} (h : step s = .next t) :
    transact .step s = .next ⟨t, .stepped t.runState (stepReport s t)⟩ := by
  simp only [transact, h, stepResponse]

theorem decodeWord_of_decode_pair {hi lo : Byte} {i : Instr} (h : decode [hi, lo] = .ok (i, [])) :
    decodeWord (wordOfBytes hi lo) = .ok i := by
  rw [decode] at h
  split at h
  · next hdec =>
    cases h
    exact hdec
  · cases h

/-- Settles O5: the two bytes at `pc` are the word that the step fetches. -/
theorem stepRunsTheDecodedInstruction : Obligations.StepRunsTheDecodedInstruction := by
  intro s i hrun hpc hdec _
  exact step_of_executes ⟨hrun, hpc, decodeWord_of_decode_pair hdec⟩

/-- Settles O6: a finished Machine's step answers the state it began in, whose errors are the same. -/
theorem finishedStepChangesNothing : Obligations.FinishedStepChangesNothing := by
  intro s hrun
  rw [transact_step (step_of_finished hrun), hrun, stepReport_of_same rfl]

/-- Settles O7: the step takes the error path, with no fetch. -/
theorem outOfBoundsPcFinishes : Obligations.OutOfBoundsPcFinishes := by
  intro s hrun hpc
  refine ⟨_, ?_, rfl, rfl, frame_takeError s .outOfBoundsPC⟩
  rw [transact_step (step_of_outOfBounds hrun hpc), stepReport_of_error rfl]
  rfl

theorem State.takeDecodeError_errors {s : State} (h : s.pc.toNat ≤ 4094) :
    s.takeDecodeError.errors = .decodeError (wordAtPc s) :: s.errors := by
  rw [← State.fetchWord_eq_wordAtPc h]
  rfl

theorem frame_takeDecodeError (s : State) : Frame { pc := true, run := true } s s.takeDecodeError :=
  { Frame.refl { pc := true, run := true } s with
    pc := by simp
    run := by simp }

/-- Settles O8: the step keeps the fetch's advance and records the word, which no row of the map matches. -/
theorem illegalWordIsReportedAndSkipped : Obligations.IllegalWordIsReportedAndSkipped := by
  intro s hrun hpc hillegal
  have herrors := State.takeDecodeError_errors hpc
  refine ⟨s.takeDecodeError, ?_, pc_toNat_add_two hpc, hrun, herrors, frame_takeDecodeError s⟩
  have hstill : s.takeDecodeError.runState = .running := hrun
  rw [transact_step (step_of_illegal hrun hpc hillegal), stepReport_of_error herrors, hstill]

/-- Settles O9: each of the four ways a step can go answers a next state. -/
theorem everyStepAnswersANextState : Obligations.EveryStepAnswersANextState := by
  intro s
  rcases step_cases s with ⟨-, hs⟩ | ⟨-, -, hs⟩ | ⟨-, -, -, hs⟩ | ⟨i, -, hs⟩
  · exact ⟨_, hs⟩
  · exact ⟨_, hs⟩
  · exact ⟨_, hs⟩
  · obtain ⟨t, ht, -⟩ := exec_next_effect i s.advance
    exact ⟨t, hs.trans ht⟩

/-- Settles O10: the bound check and the decoder report at once, and an executed instruction only on the two error
paths of the stack. -/
theorem stepReportsAtMostOneError : Obligations.StepReportsAtMostOneError := by
  intro s t h
  rcases step_next_cases h with ⟨-, rfl⟩ | ⟨-, hpc, rfl⟩ | ⟨-, hpc, hillegal, rfl⟩ | ⟨i, hi, hx⟩
  · exact .inl rfl
  · exact .inr (.inl ⟨hpc, rfl⟩)
  · exact .inr (.inr (.inl ⟨hpc, hillegal, State.takeDecodeError_errors hpc⟩))
  · rcases (effect_of_exec hx).run with ⟨-, herr⟩ | ⟨⟨nnn, rfl⟩, hsp, -, herr⟩ | ⟨rfl, hsp, -, herr⟩
    · exact .inl herr
    · exact .inr (.inr (.inr (.inl ⟨⟨nnn, hi⟩, hsp, herr⟩)))
    · exact .inr (.inr (.inr (.inr ⟨hi, hsp, herr⟩)))

/-- Settles O11: the report is the error the step recorded, and a step that records one of the other three finishes. -/
theorem stepReturnsOneOfSixPairs : Obligations.StepReturnsOneOfSixPairs := by
  intro s r hr
  obtain ⟨t, ht⟩ := everyStepAnswersANextState s
  cases (transact_step ht).symm.trans hr
  refine ⟨_, _, rfl, rfl, ?_⟩
  rcases step_next_cases ht with ⟨hrun, rfl⟩ | ⟨-, -, rfl⟩ | ⟨hrun, hpc, -, rfl⟩ | ⟨i, hi, hx⟩
  · exact .inr ⟨hrun, .inl (stepReport_of_same rfl)⟩
  · exact .inr ⟨rfl, .inr (.inr (.inr (stepReport_of_error rfl)))⟩
  · exact .inl ⟨hrun, .inr ⟨_, stepReport_of_error (State.takeDecodeError_errors hpc)⟩⟩
  · rcases (effect_of_exec hx).run with ⟨hrun, herr⟩ | ⟨-, -, hfin, herr⟩ | ⟨-, -, hfin, herr⟩
    · exact .inl ⟨hrun.trans hi.1, .inl (stepReport_of_same herr)⟩
    · exact .inr ⟨hfin, .inr (.inl (stepReport_of_error herr))⟩
    · exact .inr ⟨hfin, .inr (.inr (.inl (stepReport_of_error herr)))⟩

/-- Settles O12: the out-of-bounds check finishes the Machine, an illegal word does not, and an executed instruction
does so on the two error paths of the stack alone. -/
theorem exactlyThreeWaysToFinish : Obligations.ExactlyThreeWaysToFinish := by
  intro s t hrun h
  constructor
  · intro hfin
    rcases step_next_cases h with ⟨-, rfl⟩ | ⟨-, hpc, -⟩ | ⟨-, -, -, rfl⟩ | ⟨i, hi, hx⟩
    · exact absurd (hrun.symm.trans hfin) (by decide)
    · exact .inl hpc
    · exact absurd (hrun.symm.trans hfin) (by decide)
    · rcases (effect_of_exec hx).run with ⟨hsame, -⟩ | ⟨⟨nnn, rfl⟩, hsp, -⟩ | ⟨rfl, hsp, -⟩
      · exact absurd ((hrun.symm.trans hsame.symm).trans hfin) (by decide)
      · exact .inr (.inl ⟨⟨nnn, hi⟩, hsp⟩)
      · exact .inr (.inr ⟨hi, hsp⟩)
  · rintro (hpc | ⟨⟨nnn, hi⟩, hsp⟩ | ⟨hi, hsp⟩)
    · cases (step_of_outOfBounds hrun hpc).symm.trans h
      rfl
    · rw [step_of_executes hi, exec_callNnn_of_full (s := s.advance) nnn hsp] at h
      cases h
      rfl
    · rw [step_of_executes hi, exec_ret_of_empty (s := s.advance) hsp] at h
      cases h
      rfl

/-- Settles O15: the fetch and the error paths leave these parts alone, and each is changed by its own effects. -/
theorem eachPartChangesOnlyByItsInstructions : Obligations.EachPartChangesOnlyByItsInstructions := by
  intro s t h
  rcases step_next_cases h with ⟨-, rfl⟩ | ⟨-, -, rfl⟩ | ⟨-, -, -, rfl⟩ | ⟨i, hi, hx⟩
  · simp
  · simp [State.takeOutOfBounds]
  · simp [State.takeDecodeError]
  · have heff := effect_of_exec hx
    refine ⟨heff.key, fun hne => ?_, fun hne => ?_, fun hne => ?_, fun hne => ?_, fun hne => ?_, fun hne => ?_,
      fun hne => ?_, fun hne => ?_⟩
    · rcases heff.index_of_ne hne with ⟨nnn, rfl⟩ | ⟨x, rfl | rfl⟩
      · exact .inl ⟨nnn, hi⟩
      · exact .inr ⟨x, .inl hi⟩
      · exact .inr ⟨x, .inr hi⟩
    · obtain ⟨nnn, rfl⟩ := heff.callNnn_of_stack_ne hne
      exact ⟨nnn, hi⟩
    · rcases heff.ret_or_callNnn_of_sp_ne hne with rfl | ⟨nnn, rfl⟩
      · exact .inl hi
      · exact .inr ⟨nnn, hi⟩
    · obtain ⟨x, rfl⟩ := heff.ldDtVx_of_dt_ne hne
      exact ⟨x, hi⟩
    · obtain ⟨x, rfl⟩ := heff.ldStVx_of_st_ne hne
      exact ⟨x, hi⟩
    · rcases heff.cls_or_drwVxVyN_of_fb_ne hne with rfl | ⟨x, y, n, rfl⟩
      · exact .inl hi
      · exact .inr ⟨x, y, n, hi⟩
    · obtain ⟨x, rfl | rfl⟩ := heff.store_of_mem_ne hne
      · exact ⟨x, .inl hi⟩
      · exact ⟨x, .inr hi⟩
    · obtain ⟨x, nn, rfl⟩ := heff.rndVxNn_of_draws_ne hne
      exact ⟨x, nn, hi⟩

end Sys2Proof.Machine
end

section
/-! The copies, the logic and the arithmetic of the `8XY_` group, and the masked random byte (spec/42_load_alu.md R122
to R133). -/

namespace Sys2Proof.Machine

/-! The flags and the results as numbers (R126, R127, R129) -/

theorem flagByte_decide (p : Prop) [Decidable p] : flagByte (decide p) = if p then 1 else 0 := by
  by_cases hp : p <;> simp [flagByte, hp]

theorem byte_sub_toNat (a b : Byte) : (a - b).toNat = (a.toNat + 256 - b.toNat) % 256 := by
  have hb := b.isLt
  rw [BitVec.toNat_sub]
  omega

/-- The sum's byte and its carry are the whole sum. -/
theorem byte_add_carryOut (a b : Byte) : (a + b).toNat + 256 * (flagByte (carryOut a b)).toNat = a.toNat + b.toNat := by
  have ha := a.isLt
  have hb := b.isLt
  rw [BitVec.toNat_add, flagByte_toNat]
  by_cases h : 255 < a.toNat + b.toNat
  · rw [carryOut, decide_eq_true h, Bool.toNat_true]
    omega
  · rw [carryOut, decide_eq_false h, Bool.toNat_false]
    omega

/-- The difference's byte and its borrow are the whole difference. -/
theorem byte_sub_noBorrow (a b : Byte) :
    (a - b).toNat + b.toNat = a.toNat + 256 * (1 - (flagByte (noBorrow a b)).toNat) := by
  have ha := a.isLt
  have hb := b.isLt
  rw [byte_sub_toNat, flagByte_toNat]
  by_cases h : b.toNat ≤ a.toNat
  · rw [noBorrow, decide_eq_true h, Bool.toNat_true]
    omega
  · rw [noBorrow, decide_eq_false h, Bool.toNat_false]
    omega

/-- Bit 0 of a byte is its parity. -/
theorem shiftedOutRight_eq_decide (a : Byte) : shiftedOutRight a = decide (a.toNat % 2 = 1) := by
  rw [Bool.eq_iff_iff, decide_eq_true_iff, ← Bool.toNat_eq_one, shiftedOutRight_toNat]

/-- Bit 7 of a byte is whether it reaches 128. -/
theorem shiftedOutLeft_eq_decide (a : Byte) : shiftedOutLeft a = decide (128 ≤ a.toNat) := by
  have ha := a.isLt
  rw [Bool.eq_iff_iff, decide_eq_true_iff, ← Bool.toNat_eq_one, shiftedOutLeft_toNat]
  omega

/-- Settles O18: each of the four answers `setReg` of the byte combined bit by bit. -/
theorem copyAndLogicWriteOnlyTheDestination : Obligations.CopyAndLogicWriteOnlyTheDestination := by
  refine ⟨fun w h8 => ⟨fun h => ?_, fun h => ?_, fun h => ?_, fun h => ?_⟩, fun s x y =>
    ⟨⟨_, exec_ldVxVy x y s, State.reg_setReg_self s x _, frame_setReg s x _⟩,
      ⟨_, exec_orVxVy x y s, fun k _ => ?_, frame_setReg s x _⟩,
      ⟨_, exec_andVxVy x y s, fun k _ => ?_, frame_setReg s x _⟩,
      ⟨_, exec_xorVxVy x y s, fun k _ => ?_, frame_setReg s x _⟩⟩⟩
  · rw [decodeWord_of_n1_eq_8 h8, decodeGroup8_of_n4_eq_0 h]
  · rw [decodeWord_of_n1_eq_8 h8, decodeGroup8_of_n4_eq_1 h]
  · rw [decodeWord_of_n1_eq_8 h8, decodeGroup8_of_n4_eq_2 h]
  · rw [decodeWord_of_n1_eq_8 h8, decodeGroup8_of_n4_eq_3 h]
  · rw [State.reg_setReg_self, BitVec.getLsbD_or]
  · rw [State.reg_setReg_self, BitVec.getLsbD_and]
  · rw [State.reg_setReg_self, BitVec.getLsbD_xor]

/-- Settles O19: the sum goes to `V[X]` and the carry, computed before, to VF. -/
theorem addSetsTheCarry : Obligations.AddSetsTheCarry := by
  refine ⟨fun w h8 h4 => ?_, fun s x y => ⟨_, exec_addVxVy x y s, ?_, fun hx => ⟨?_, ?_⟩,
    frame_setResultThenFlag s x _ _⟩⟩
  · rw [decodeWord_of_n1_eq_8 h8, decodeGroup8_of_n4_eq_4 h4]
  · rw [State.reg_setResultThenFlag_regVF, carryOut, flagByte_decide]
  · rw [State.reg_setResultThenFlag_self s _ _ hx, BitVec.toNat_add]
  · rw [State.reg_setResultThenFlag_self s _ _ hx, State.reg_setResultThenFlag_regVF, byte_add_carryOut]

/-- Settles O20: the difference goes to `V[X]` and "no borrow", computed before, to VF. -/
theorem subtractSetsNoBorrow : Obligations.SubtractSetsNoBorrow := by
  refine ⟨fun w h8 h5 => ?_, fun s x y => ⟨_, exec_subVxVy x y s, ?_, fun hx => ⟨?_, ?_⟩,
    frame_setResultThenFlag s x _ _⟩⟩
  · rw [decodeWord_of_n1_eq_8 h8, decodeGroup8_of_n4_eq_5 h5]
  · rw [State.reg_setResultThenFlag_regVF, noBorrow, flagByte_decide]
  · rw [State.reg_setResultThenFlag_self s _ _ hx, byte_sub_toNat]
  · rw [State.reg_setResultThenFlag_self s _ _ hx, State.reg_setResultThenFlag_regVF, byte_sub_noBorrow]

/-- Settles O21: as the subtraction, with the operands exchanged. -/
theorem reverseSubtractSetsNoBorrow : Obligations.ReverseSubtractSetsNoBorrow := by
  refine fun s x y => ⟨_, exec_subnVxVy x y s, ?_, fun hx => ?_, frame_setResultThenFlag s x _ _⟩
  · rw [State.reg_setResultThenFlag_regVF, noBorrow, flagByte_decide]
  · rw [State.reg_setResultThenFlag_self s _ _ hx, byte_sub_toNat]

/-- The frame of a result and its flag where both go to VF. -/
theorem frame_setResultThenFlag_regVF (s : State) (b : Byte) (f : Bool) :
    Frame { regs := [regVF] } s (s.setResultThenFlag regVF b f) :=
  { frame_setResultThenFlag s regVF b f with
    regs := fun r hr => (frame_setResultThenFlag s regVF b f).regs r (by simpa using hr) }

/-- What an instruction that ends in `setResultThenFlag` leaves in VF, and with `X = F` of the rest. -/
theorem flag_stands_of_exec {i : Instr} {s : State} {x : Reg} {b : Byte} {f flag : Bool}
    (h : exec i s = .next (s.setResultThenFlag x b f)) (hf : f = flag) :
    ∃ t, exec i s = .next t ∧ t.reg regVF = (if flag then 1 else 0) ∧ (x = regVF → Frame { regs := [regVF] } s t) := by
  subst hf
  refine ⟨_, h, State.reg_setResultThenFlag_regVF s x b f, ?_⟩
  rintro rfl
  exact frame_setResultThenFlag_regVF s b f

/-- Settles O23: all five end in `setResultThenFlag`, whose flag is computed from the registers before. -/
theorem flagIsWrittenLastWhateverTheOperands : Obligations.FlagIsWrittenLastWhateverTheOperands := by
  intro s x y i flag hmem
  simp only [List.mem_cons, Prod.mk.injEq, List.not_mem_nil, or_false] at hmem
  rcases hmem with ⟨rfl, rfl⟩ | ⟨rfl, rfl⟩ | ⟨rfl, rfl⟩ | ⟨rfl, rfl⟩ | ⟨rfl, rfl⟩
  · exact flag_stands_of_exec (exec_addVxVy x y s) rfl
  · exact flag_stands_of_exec (exec_subVxVy x y s) rfl
  · exact flag_stands_of_exec (exec_shrVx x y s) (shiftedOutRight_eq_decide _)
  · exact flag_stands_of_exec (exec_subnVxVy x y s) rfl
  · exact flag_stands_of_exec (exec_shlVx x y s) (shiftedOutLeft_eq_decide _)

theorem byte_and_and_not (a m : Byte) : a &&& m &&& ~~~m = 0 := by
  rw [BitVec.and_assoc, BitVec.and_not_self]
  exact BitVec.and_zero

/-- Settles O24: the byte drawn is masked before it goes to `V[X]`. -/
theorem randomByteIsMasked : Obligations.RandomByteIsMasked := by
  intro s x nn
  have hreg : (s.draw8.2.setReg x (s.draw8.1 &&& nn)).reg x = Config.draw s.draws &&& nn := State.reg_setReg_self _ x _
  refine ⟨_, exec_rndVxNn x nn s, hreg, ?_, rfl,
    { frame_setReg s.draw8.2 x (s.draw8.1 &&& nn) with draws := nofun }⟩
  rw [hreg, byte_and_and_not]

end Sys2Proof.Machine
end

section
/-! The memory instructions of spec/43_index_memory.md R143 to R145 and `load_program` (spec/70_reset_and_hazards.md
R201): what stands where after them. -/

namespace Sys2Proof.Machine

/-! Masked addresses -/

theorem ea_add (a b : Word) : ea (a + b) = ea a + ea b :=
  BitVec.setWidth_add a b (by decide)

theorem ea_add_congr {a b : Word} (h : ea a = ea b) (c : Word) : ea (a + c) = ea (b + c) := by
  rw [ea_add, ea_add, h]

theorem touched_three (a : Word) : touched a 3 = [ea a, ea (a + 1), ea (a + 2)] := by
  simp [touched, List.range_succ]

/-- The three bytes that `FX33` stores lie at three addresses. -/
theorem ea_three_nodup (a : Word) : [ea a, ea (a + 1), ea (a + 2)].Nodup := by
  have h01 := ea_add_ne (a := a) (j := 0) (k := 1) (by decide) (by decide) (by decide)
  have h02 := ea_add_ne (a := a) (j := 0) (k := 2) (by decide) (by decide) (by decide)
  have h12 := ea_add_ne (a := a) (j := 1) (k := 2) (by decide) (by decide) (by decide)
  rw [BitVec.add_zero] at h01 h02
  simp only [List.nodup_cons, List.mem_cons, List.not_mem_nil, or_false, not_or, not_false_eq_true, List.nodup_nil,
    and_true]
  exact ⟨⟨h01, h02⟩, h12⟩

/-! The decimal digits (R143) -/

theorem byte_ofNat_toNat {n : Nat} (h : n < 256) : (BitVec.ofNat 8 n).toNat = n :=
  Nat.mod_eq_of_lt h

/-- Settles O26: `writeBytes` puts the digits, each below 256, at three addresses. -/
theorem decimalDigitsAreStored : Obligations.DecimalDigitsAreStored := by
  refine ⟨fun w hF h33 => ?_, fun s x hwf => ?_⟩
  · rw [decodeWord_of_n1_eq_F hF, decodeGroupF_of_nn_eq_33 h33]
  · have hv := (s.reg x).isLt
    have hread := fun k hk => State.readMem_writeBytes (bcdDigits (s.reg x)) s.i k hk (show 3 ≤ 4096 by decide) hwf
    refine ⟨_, exec_ldBVx x s, ?_, ?_, ?_, ea_three_nodup s.i, ?_⟩
    · have h100 := hread 0 (show 0 < 3 by decide)
      rw [BitVec.add_zero] at h100
      exact (congrArg BitVec.toNat h100).trans (byte_ofNat_toNat (by omega))
    · exact (congrArg BitVec.toNat (hread 1 (show 1 < 3 by decide))).trans (byte_ofNat_toNat (by omega))
    · exact (congrArg BitVec.toNat (hread 2 (show 2 < 3 by decide))).trans (byte_ofNat_toNat (by omega))
    · exact touched_three s.i ▸ frame_writeBytes s s.i (bcdDigits (s.reg x)) hwf

/-! Blocks of registers (R144, R145) -/

/-- `FX55` leaves `V[k]` at `ea(I + k)`. -/
theorem State.readMem_storeRegs {s : State} {x k : Reg} (h : Memory.wf s.mem = true) (hk : k ≤ x) :
    (s.writeBytes s.i ((regsUpTo x).map s.reg)).readMem (ea (s.i + BitVec.ofNat 16 k.val)) = s.reg k := by
  have hx := x.isLt
  have hlen : ((regsUpTo x).map s.reg).length = x.val + 1 := by rw [List.length_map, regsUpTo_length]
  have hlt : k.val < ((regsUpTo x).map s.reg).length := hlen ▸ Nat.lt_succ_of_le hk
  rw [State.readMem_writeBytes _ s.i k.val hlt (by omega) h, List.getElem_map, regsUpTo_getElem]

/-- `FX65` leaves the byte at `ea(I + k)` in `V[k]`. -/
theorem State.reg_loadRegs (s : State) {x k : Reg} (hk : k ≤ x) :
    (s.setRegs (regsUpTo x) (s.readBytes s.i (x.val + 1))).reg k = s.readMem (ea (s.i + BitVec.ofNat 16 k.val)) := by
  have hr : k.val < (regsUpTo x).length := regsUpTo_length x ▸ Nat.lt_succ_of_le hk
  have hb : k.val < (s.readBytes s.i (x.val + 1)).length := State.readBytes_length s _ _ ▸ Nat.lt_succ_of_le hk
  have h := State.reg_setRegs _ _ s k.val hr hb (regsUpTo_nodup x)
  rwa [regsUpTo_getElem, State.readBytes_getElem] at h

/-- Settles O27: the block that `writeBytes` stores is `V[0]` to `V[X]`. -/
theorem registersAreStoredFromI : Obligations.RegistersAreStoredFromI := by
  intro s x hwf
  have hframe := frame_writeBytes s s.i ((regsUpTo x).map s.reg) hwf
  rw [List.length_map, regsUpTo_length] at hframe
  exact ⟨_, exec_ldMiVx x s, fun k hk => State.readMem_storeRegs hwf hk, hframe⟩

/-- Settles O28: the bytes that `readBytes` reads are loaded in order, each register once. -/
theorem registersAreLoadedFromI : Obligations.RegistersAreLoadedFromI := by
  intro s x
  refine ⟨_, exec_ldVxMi x s, fun k hk => State.reg_loadRegs s hk,
    { frame_setRegs s (regsUpTo x) (s.readBytes s.i (x.val + 1)) with regs := fun r hr => ?_ }⟩
  have hnot : r ∉ regsUpTo x := by simpa [mem_regsUpTo] using hr
  exact (frame_setRegs s _ _).regs r hnot

/-- Settles O29: `FX65` reads each byte where `FX55` put it. -/
theorem storeThenLoadRestoresTheRegisters : Obligations.StoreThenLoadRestoresTheRegisters := by
  intro s x hwf
  refine ⟨_, exec_ldMiVx x s, fun u hmem hi => ⟨_, exec_ldVxMi x u, fun k hk => ?_⟩⟩
  rw [State.reg_loadRegs u hk, State.readMem_eq_of_mem hmem, hi, State.writeBytes_i, State.readMem_storeRegs hwf hk]

/-- Settles O30: the store puts `V[0]` and `V[1]` at the two addresses that the next fetch reads. -/
theorem storedWordIsFetchedNext : Obligations.StoredWordIsFetchedNext := by
  intro s t x hwf hi hx hea h
  rw [step_of_executes hi, exec_ldMiVx] at h
  cases h
  have h0 := State.readMem_storeRegs (s := s.advance) (k := 0) hwf (Nat.zero_le x.val)
  have h1 := State.readMem_storeRegs (s := s.advance) (k := 1) hwf hx
  have ha0 : ea (s.pc + 2) = ea (s.i + BitVec.ofNat 16 0) := hea.symm.trans (congrArg ea (BitVec.add_zero s.i).symm)
  have ha1 : ea (s.pc + 2 + 1) = ea (s.i + BitVec.ofNat 16 1) := (ea_add_congr hea 1).symm
  rw [wordAtPc, State.writeBytes_pc, State.advance_pc, ha0, ha1]
  exact congrArg₂ wordOfBytes h0 h1

/-! The image that `load_program` copies (spec/70_reset_and_hazards.md R201) -/

theorem ea_progBase_add (k : Nat) :
    ea (BitVec.ofNat 16 Config.progBase + BitVec.ofNat 16 k) = BitVec.ofNat 12 (0x200 + k) := by
  refine BitVec.eq_of_toNat_eq ?_
  simp only [ea_toNat, BitVec.toNat_add, BitVec.toNat_ofNat, Config.progBase]
  omega

theorem loadProgram_of_le {bytes : List Byte} (h : bytes.length ≤ 3584) (s : State) :
    loadProgram bytes s = .next (s.writeBytes (BitVec.ofNat 16 Config.progBase) bytes) :=
  if_neg (Nat.not_lt.2 h)

theorem loadProgram_of_gt {bytes : List Byte} (h : 3584 < bytes.length) (s : State) :
    loadProgram bytes s = .refused (.oversizedRom bytes.length) :=
  if_pos h

theorem transact_loadProgram_of_le {bytes : List Byte} (h : bytes.length ≤ 3584) (s : State) :
    transact (.loadProgram bytes) s =
      .next ⟨s.writeBytes (BitVec.ofNat 16 Config.progBase) bytes, .nothing⟩ := by
  rw [transact, loadProgram_of_le h, quietly]

theorem transact_loadProgram_of_gt {bytes : List Byte} (h : 3584 < bytes.length) (s : State) :
    transact (.loadProgram bytes) s = .refused (.oversizedRom bytes.length) := by
  rw [transact, loadProgram_of_gt h, quietly]

/-- Settles O48: an image that fits ends within memory, so its addresses never wrap. -/
theorem loadProgramCopiesTheImage : Obligations.LoadProgramCopiesTheImage := by
  intro s bytes
  refine ⟨fun hwf hlen => ⟨_, transact_loadProgram_of_le hlen s, fun k hk => ?_, fun a ha => ?_,
    State.writeBytes_eq bytes s _⟩, fun hlen => transact_loadProgram_of_gt hlen s⟩
  · rw [← ea_progBase_add]
    exact State.readMem_writeBytes bytes _ k hk (by omega) hwf
  · refine State.readMem_writeBytes_of_notMem bytes _ a hwf fun k hk e => ?_
    have hval : a.toNat = (0x200 + k) % 4096 := by
      rw [e, ea_progBase_add]
      exact BitVec.toNat_ofNat _ 12
    omega

end Sys2Proof.Machine
end

section
/-! Control transfer (spec/41_control_flow.md R100 to R107): where each instruction leaves `pc` and the call stack. -/

namespace Sys2Proof.Machine

theorem frame_call (s : State) (stack : Vector Word 16) (sp : Fin 17) (pc : Word) :
    Frame { pc := true, stack := true } s { s with stack := stack, sp := sp, pc := pc } :=
  { Frame.refl { pc := true, stack := true } s with
    pc := nofun
    stack := nofun }

/-- Settles O31: the sum of `BNNN` stays below 65536. -/
theorem jumpsSetPc : Obligations.JumpsSetPc := by
  refine fun s nnn => ⟨⟨_, exec_jpNnn nnn s, zextAddr_toNat nnn, frame_setPc s _⟩,
    ⟨_, exec_jpV0Nnn nnn s, ?_, frame_setPc s _⟩⟩
  have hnnn := nnn.isLt
  have hv0 := (s.reg regV0).isLt
  rw [State.setPc_pc, BitVec.toNat_add, zextAddr_toNat, zextByte_toNat]
  exact Nat.mod_eq_of_lt (by omega)

/-- Settles O32: the push writes slot `sp` alone. -/
theorem callPushesTheReturnAddress : Obligations.CallPushesTheReturnAddress := by
  intro s nnn h
  refine ⟨_, exec_callNnn_of_lt nnn h, Vector.getElem_set_self _, rfl, zextAddr_toNat nnn, fun k hk => ?_,
    frame_call s _ _ _⟩
  exact Vector.getElem_set_ne h k.isLt (Ne.symm hk)

/-- Settles O33: with no free slot the push fails and the error path is taken. -/
theorem callOnAFullStackFinishes : Obligations.CallOnAFullStackFinishes :=
  fun s nnn h => ⟨_, exec_callNnn_of_full nnn h, rfl, rfl, frame_takeError s _⟩

/-- Settles O34: the pop reads slot `sp - 1` and leaves the slots alone, or fails. -/
theorem returnPopsTheReturnAddress : Obligations.ReturnPopsTheReturnAddress :=
  fun s => ⟨fun h => ⟨_, exec_ret_of_pos h, rfl, rfl, rfl, frame_call s s.stack _ _⟩,
    fun h => ⟨_, exec_ret_of_empty h, rfl, rfl, frame_takeError s _⟩⟩

/-- Settles O35: the slot that the return reads is the one that the call wrote. -/
theorem callThenReturnComesBack : Obligations.CallThenReturnComesBack := by
  intro s nnn h
  refine ⟨_, exec_callNnn_of_lt nnn h, fun u hsp hslots => ?_⟩
  have hval : u.sp.val = s.sp.val + 1 := congrArg Fin.val hsp
  refine ⟨_, exec_ret_of_pos (by omega), ?_, ?_, rfl⟩
  · have hslot := hslots ⟨s.sp.val, h⟩ (hval ▸ Nat.lt_succ_self _)
    simpa [hval] using hslot
  · exact Fin.ext (by simp [hval])

/-- Settles O36: each is `skipIf` of its condition. -/
theorem comparingSkips : Obligations.ComparingSkips := by
  refine fun s x y nn => ⟨⟨_, exec_seVxNn x nn s, ?_, frame_skipIf s _⟩, ⟨_, exec_sneVxNn x nn s, ?_, frame_skipIf s _⟩,
    ⟨_, exec_seVxVy x y s, ?_, frame_skipIf s _⟩, ⟨_, exec_sneVxVy x y s, ?_, frame_skipIf s _⟩⟩
  all_goals simp [State.skipIf_pc]

/-- Setting `pc` back to where it was undoes the fetch's advance. -/
theorem State.advance_setPc_self (s : State) : s.advance.setPc s.pc = s := rfl

/-- Settles O37: the jump sets `pc` back to where it was. -/
theorem jumpToItselfChangesNothing : Obligations.JumpToItselfChangesNothing := by
  rintro s ⟨nnn, hi, hpc⟩
  have htarget : zextAddr nnn = s.pc := BitVec.eq_of_toNat_eq ((zextAddr_toNat nnn).trans hpc)
  rw [step_of_executes hi, exec_jpNnn, htarget, State.advance_setPc_self]

end Sys2Proof.Machine
end

section
/-! Drawing (spec/44_display.md R151 to R153): the blit of `DXYN` in terms of the pixels that the sprite's 1 bits
meet. -/

namespace Sys2Proof.Machine

theorem pixelIndex_eq_iff {a b px py : Nat} (hx : px < 64) (k : Fin 2048) (hk : k.val = px + 64 * py) :
    pixelIndex a b = k ↔ a % 64 = px ∧ b % 32 = py := by
  rw [Fin.ext_iff, hk]
  simp only [pixelIndex]
  omega

/-- The bits of the sprite's rows, with the pixels they meet, as the statements count them. -/
theorem mem_spritePixels_spriteRows {s : State} {x y : Reg} {n : Nibble} {p : Fin 2048 × Bool} :
    p ∈ spritePixels (s.reg x).toNat (s.reg y).toNat (s.spriteRows n) ↔ ∃ row < n.toNat, ∃ col < 8,
      p = (pixelIndex ((s.reg x).toNat + col) ((s.reg y).toNat + row),
        (s.readMem (ea (s.i + BitVec.ofNat 16 row))).getLsbD (7 - col)) := by
  simp only [mem_spritePixels, State.spriteRows, State.readBytes_getElem, State.readBytes_length, exists_prop]

theorem spriteBitOver_iff {s : State} {x y : Reg} {n : Nibble} {px py : Nat} (hx : px < 64) (k : Fin 2048)
    (hk : k.val = px + 64 * py) :
    SpriteBitOver s x y n px py ↔ (spritePixels (s.reg x).toNat (s.reg y).toNat (s.spriteRows n)).any
      (fun p => decide (p.1 = k) && p.2) = true := by
  simp only [List.any_eq_true, mem_spritePixels_spriteRows, Bool.and_eq_true, decide_eq_true_eq]
  constructor
  · rintro ⟨row, hrow, col, hcol, hbit, hpixel⟩
    exact ⟨_, ⟨row, hrow, col, hcol, rfl⟩, (pixelIndex_eq_iff hx k hk).2 hpixel, hbit⟩
  · rintro ⟨_, ⟨row, hrow, col, hcol, rfl⟩, hpixel, hbit⟩
    exact ⟨row, hrow, col, hcol, hbit, (pixelIndex_eq_iff hx k hk).1 hpixel⟩

theorem spriteRows_length_le (s : State) (n : Nibble) : (s.spriteRows n).length ≤ 32 := by
  have hn := n.isLt
  rw [State.spriteRows, State.readBytes_length]
  omega

section
variable {s : State} {x y : Reg} {n : Nibble} {px py : Nat} (hx : px < 64) (hy : py < 32)

theorem spriteBlit_fb_of_over (h : SpriteBitOver s x y n px py) :
    (s.spriteBlit x y n).fb[px + 64 * py] = !s.fb[px + 64 * py] := by
  have hfb := (blitSprite_spec s.fb (s.reg x).toNat (s.reg y).toNat _ (spriteRows_length_le s n)).1
    ⟨px + 64 * py, by omega⟩
  rw [(spriteBitOver_iff hx _ rfl).1 h, Bool.xor_true] at hfb
  exact hfb

theorem spriteBlit_fb_of_not_over (h : ¬ SpriteBitOver s x y n px py) :
    (s.spriteBlit x y n).fb[px + 64 * py] = s.fb[px + 64 * py] := by
  have hfb := (blitSprite_spec s.fb (s.reg x).toNat (s.reg y).toNat _ (spriteRows_length_le s n)).1
    ⟨px + 64 * py, by omega⟩
  rw [Bool.eq_false_of_not_eq_true ((spriteBitOver_iff hx _ rfl).not.1 h), Bool.xor_false] at hfb
  exact hfb

end

/-- A 1 bit of the sprite lies over a pixel that is `on`. -/
def SpriteMeets (s : State) (x y : Reg) (n : Nibble) (on : Bool) : Prop :=
  ∃ (px py : Nat) (hx : px < 64) (hy : py < 32),
    SpriteBitOver s x y n px py ∧ (s.fb[px + 64 * py]'(by omega)) = on

theorem spriteBlit_collided_iff {s : State} {x y : Reg} {n : Nibble} :
    (s.spriteBlit x y n).collided = true ↔ SpriteMeets s x y n true := by
  rw [State.spriteBlit, (blitSprite_spec s.fb _ _ _ (spriteRows_length_le s n)).2]
  simp only [List.any_eq_true, mem_spritePixels_spriteRows, Bool.and_eq_true]
  constructor
  · rintro ⟨_, ⟨row, hrow, col, hcol, rfl⟩, hbit, hon⟩
    exact ⟨_, _, Nat.mod_lt _ (by decide), Nat.mod_lt _ (by decide), ⟨row, hrow, col, hcol, hbit, rfl, rfl⟩, hon⟩
  · rintro ⟨_, _, hx, hy, ⟨row, hrow, col, hcol, hbit, rfl, rfl⟩, hon⟩
    exact ⟨_, ⟨row, hrow, col, hcol, rfl⟩, hbit, hon⟩

theorem State.reg_setFlag_self (s : State) (f : Bool) : (s.setFlag f).reg regVF = flagByte f :=
  State.reg_setReg_self s regVF _

theorem flagByte_eq_one_iff {f : Bool} : flagByte f = 1 ↔ f = true := by
  cases f <;> decide

theorem frame_drwVxVyN (s : State) (fb : FrameBuffer) (f : Bool) :
    Frame { regs := [regVF], display := true } s ((s.setFb fb).setFlag f) :=
  { frame_setReg (s.setFb fb) regVF (flagByte f) with display := nofun }

/-- Settles O39: the blit inverts a pixel iff a 1 bit of the sprite lies over it, and collides iff one such was on. -/
theorem drawInvertsUnderTheSprite : Obligations.DrawInvertsUnderTheSprite := by
  intro s x y n
  refine ⟨_, exec_drwVxVyN x y n s, fun px py hx hy => ⟨spriteBlit_fb_of_over hx hy, spriteBlit_fb_of_not_over hx hy⟩,
    fun hmeet => ?_, fun hoff => ?_, frame_drwVxVyN s _ _⟩
  · rw [State.reg_setFlag_self, spriteBlit_collided_iff.2 hmeet]
    rfl
  · have hmiss : ¬ SpriteMeets s x y n true := by
      rintro ⟨px, py, hx, hy, hover, hon⟩
      exact Bool.false_ne_true ((hoff px py hx hy hover).symm.trans hon)
    rw [State.reg_setFlag_self, Bool.eq_false_of_not_eq_true (spriteBlit_collided_iff.not.2 hmiss)]
    rfl

/-! Drawing again (R153) -/

theorem spriteBitOver_congr {s u : State} {x y : Reg} {n : Nibble} {px py : Nat} (hmem : u.mem = s.mem) (hi : u.i = s.i)
    (hx : u.reg x = s.reg x) (hy : u.reg y = s.reg y) : SpriteBitOver u x y n px py ↔ SpriteBitOver s x y n px py := by
  simp only [SpriteBitOver, State.readMem_eq_of_mem hmem, hi, hx, hy]

/-- Framebuffers are equal when they agree in every column and row. -/
theorem frameBuffer_ext {f g : FrameBuffer}
    (h : ∀ (px py : Nat) (hx : px < 64) (hy : py < 32), (f[px + 64 * py]'(by omega)) = g[px + 64 * py]'(by omega)) :
    f = g := by
  refine Vector.ext fun j hj => ?_
  have hcell := h (j % 64) (j / 64) (Nat.mod_lt j (by decide)) (by omega)
  simpa only [Nat.mod_add_div] using hcell

/-- Settles O40: the second draw inverts the same pixels, and meets one that is on where the first met one that was
off. -/
theorem drawingTwiceRestoresTheScreen : Obligations.DrawingTwiceRestoresTheScreen := by
  intro s x y n
  refine ⟨_, exec_drwVxVyN x y n s, fun u hfb hmem hi hx hy => ⟨_, exec_drwVxVyN x y n u, ?_, ?_⟩⟩
  · refine frameBuffer_ext fun px py hpx hpy => ?_
    have hsame : (u.fb[px + 64 * py]'(by omega)) = (s.spriteBlit x y n).fb[px + 64 * py]'(by omega) := by
      rw [hfb]
      rfl
    by_cases hover : SpriteBitOver s x y n px py
    · have hagain := (spriteBitOver_congr hmem hi hx hy).2 hover
      exact (spriteBlit_fb_of_over hpx hpy hagain).trans
        (by rw [hsame, spriteBlit_fb_of_over hpx hpy hover, Bool.not_not])
    · have hagain := (spriteBitOver_congr hmem hi hx hy).not.2 hover
      exact (spriteBlit_fb_of_not_over hpx hpy hagain).trans
        (by rw [hsame, spriteBlit_fb_of_not_over hpx hpy hover])
  · rw [State.reg_setFlag_self, flagByte_eq_one_iff, spriteBlit_collided_iff]
    refine exists_congr fun px => exists_congr fun py => exists_congr fun hpx => exists_congr fun hpy => ?_
    rw [spriteBitOver_congr hmem hi hx hy]
    refine and_congr_right fun hover => ?_
    have hsame : (u.fb[px + 64 * py]'(by omega)) = !(s.fb[px + 64 * py]'(by omega)) := by
      rw [← spriteBlit_fb_of_over hpx hpy hover, hfb]
      rfl
    rw [hsame, Bool.not_eq_true']

end Sys2Proof.Machine
end

section
/-! Keypad and timer instructions (spec/45_keypad_timer.md), and the transactions of the host and the timer clock
(spec/60_exceptions.md R175, R182 to R186; spec/70_reset_and_hazards.md R200). -/

namespace Sys2Proof.Machine

/-! Keys (R160 to R162) -/

/-- Settles O41: each is `skipIf` of the latch of the low nibble, or of its negation. -/
theorem keySkips : Obligations.KeySkips := by
  intro s x k hk
  have hindex : keyIndex (s.reg x) = k := Fin.ext hk.symm
  refine ⟨⟨_, exec_skpVx x s, ?_, frame_skipIf s _⟩, ⟨_, exec_sknpVx x s, ?_, frame_skipIf s _⟩⟩
  · rw [State.skipIf_pc, hindex, State.keyDown]
  · rw [State.skipIf_pc, hindex, State.keyDown]
    cases s.key[k.val] <;> rfl

theorem keyByte_toNat (k : Fin 16) : (keyByte k).toNat = k.val :=
  byte_ofNat_toNat (by have := k.isLt; omega)

/-- A key that is down while no lower one is, is the one `lowestKey` answers. -/
theorem State.lowestKey_of_lowest {s : State} {k : Fin 16} (hk : s.key[k.val] = true)
    (hlow : ∀ j : Fin 16, j < k → s.key[j.val] = false) : s.lowestKey = some k := by
  rcases hkey : s.lowestKey with _ | j
  · exact absurd (hk.symm.trans (State.lowestKey_eq_none.1 hkey k)) (by decide)
  · obtain ⟨hj, hjlow⟩ := State.lowestKey_eq_some hkey
    rcases lt_trichotomy j k with hlt | rfl | hgt
    · exact absurd (hj.symm.trans (hlow j hlt)) (by decide)
    · rfl
    · exact absurd (hk.symm.trans (hjlow k hgt)) (by decide)

/-- Settles O42, by the key that `lowestKey` answers. -/
theorem waitForKeyTakesTheLowestKey : Obligations.WaitForKeyTakesTheLowestKey := by
  refine fun s x => ⟨fun k hk hlow => ⟨_, exec_ldVxK_of_some x (State.lowestKey_of_lowest hk hlow), ?_,
    frame_setReg s x _⟩, fun hup => ⟨_, exec_ldVxK_of_none x (State.lowestKey_eq_none.2 hup), rfl, frame_setPc s _⟩⟩
  rw [State.reg_setReg_self, keyByte_toNat]

/-- Settles O43: `pc` goes back by the fetch's advance. -/
theorem waitingForAKeyChangesNothing : Obligations.WaitingForAKeyChangesNothing := by
  intro s x hi hup
  have hnone : s.advance.lowestKey = none := State.lowestKey_eq_none.2 hup
  rw [step_of_executes hi, exec_ldVxK_of_none x hnone, State.advance_pc, BitVec.add_sub_cancel,
    State.advance_setPc_self]

/-! Timers (R163 to R165, R182, R183) -/

/-- Settles O44: each is one assignment. -/
theorem timerTransfers : Obligations.TimerTransfers :=
  fun s x => ⟨⟨_, exec_ldVxDt x s, State.reg_setReg_self s x _, frame_setReg s x _⟩,
    ⟨_, exec_ldDtVx x s, rfl, frame_setDt s _⟩, ⟨_, exec_ldStVx x s, rfl, frame_setSt s _⟩⟩

theorem tickedTimer_toNat (b : Byte) : (tickedTimer b).toNat = b.toNat - 1 := by
  have hb := b.isLt
  unfold tickedTimer
  split
  · next h =>
    subst h
    rfl
  · next h =>
    have hpos : b.toNat ≠ 0 := fun e => h (BitVec.eq_of_toNat_eq e)
    rw [byte_sub_toNat]
    change (b.toNat + 256 - 1) % 256 = _
    omega

theorem timerSignal_eq_playSound_iff (s : State) : timerSignal s = .playSound ↔ s.st.toNat = 1 := by
  have hst : s.st = 1 ↔ s.st.toNat = 1 := BitVec.toNat_inj.symm
  rw [← hst]
  unfold timerSignal
  split <;> simp_all

theorem frame_tickTimers (s : State) : Frame { delay := true, sound := true } s (tickTimers s) :=
  { Frame.refl { delay := true, sound := true } s with
    delay := nofun
    sound := nofun }

/-- Settles O45: both timers take `tickedTimer`, and the signal looks at ST before the tick. -/
theorem tickCountsDownBothTimers : Obligations.TickCountsDownBothTimers :=
  fun s => ⟨_, _, rfl, tickedTimer_toNat s.dt, tickedTimer_toNat s.st, timerSignal_eq_playSound_iff s,
    frame_tickTimers s⟩

/-! The host's transactions -/

theorem transact_setKey_of_lt {index : Nat} (h : index < 16) (pressed : Bool) (s : State) :
    transact (.setKey index pressed) s = .next ⟨s.setKeyLatch ⟨index, h⟩ pressed, .nothing⟩ := by
  simp only [transact, setKey, dif_pos h, quietly]

theorem transact_setKey_of_ge {index : Nat} (h : 16 ≤ index) (pressed : Bool) (s : State) :
    transact (.setKey index pressed) s = .refused (.keyIndexOutOfRange index) := by
  simp only [transact, setKey, dif_neg (Nat.not_lt.2 h), quietly]

/-- Settles O47: an accepted key change is one write of the latch array. -/
theorem setKeySetsOneLatch : Obligations.SetKeySetsOneLatch := by
  refine fun s index pressed => ⟨fun h => ⟨_, transact_setKey_of_lt h pressed s, Vector.getElem_set_self _,
    fun k hk => ?_, rfl⟩, fun h => transact_setKey_of_ge h pressed s⟩
  exact Vector.getElem_set_ne h k.isLt (Ne.symm hk)

/-- Settles O49: a step always answers, and of the others only the two host calls with a contract can be refused. -/
theorem onlyContractViolationsAreRefused : Obligations.OnlyContractViolationsAreRefused := by
  intro a s
  cases a with
  | new => exact .inl ⟨_, rfl⟩
  | loadProgram bytes =>
    rcases Nat.lt_or_ge 3584 bytes.length with h | h
    · exact .inr (.inl ⟨bytes, rfl, h, transact_loadProgram_of_gt h s⟩)
    · exact .inl ⟨_, transact_loadProgram_of_le h s⟩
  | step =>
    obtain ⟨t, ht⟩ := everyStepAnswersANextState s
    exact .inl ⟨_, transact_step ht⟩
  | tickTimers => exact .inl ⟨_, rfl⟩
  | setKey index pressed =>
    rcases Nat.lt_or_ge index 16 with h | h
    · exact .inl ⟨_, transact_setKey_of_lt h pressed s⟩
    · exact .inr (.inr ⟨index, pressed, rfl, h, transact_setKey_of_ge h pressed s⟩)
  | framebuffer => exact .inl ⟨_, rfl⟩

/-- Settles O50: the cells are the framebuffer's list, whose order is row-major. -/
theorem framebufferReturnsTheCells : Obligations.FramebufferReturnsTheCells := by
  refine fun s => ⟨framebuffer s, rfl, Vector.length_toList, fun x y hx hy => ?_⟩
  have hlt : x + 64 * y < 2048 := by omega
  rw [framebuffer, List.getElem?_eq_getElem (by simpa using hlt), Vector.getElem_toList]

/-! What `new` leaves (R200) -/

theorem font_length : Config.font.length = 80 := by decide

theorem resetByte_of_not_font {a : Nat} (h : a < 0x050 ∨ 0x0A0 ≤ a) : resetByte a = 0 :=
  if_neg (by simp only [Config.fontBase, Config.fontSize]; omega)

theorem resetByte_font {k : Nat} (h : k < 80) : some (resetByte (0x050 + k)) = Config.font[k]? := by
  have hk : k < Config.font.length := font_length ▸ h
  have hin : Config.fontBase ≤ 0x050 + k ∧ 0x050 + k < Config.fontBase + Config.fontSize := by
    simp only [Config.fontBase, Config.fontSize]
    omega
  rw [resetByte, if_pos hin, Nat.add_sub_cancel_left, List.getD_eq_getElem _ _ hk, List.getElem?_eq_getElem hk]

/-- Settles O51: no byte is listed in the new state's memory, so each reads as its reset content. -/
theorem newGivesTheResetState : Obligations.NewGivesTheResetState := by
  intro s
  refine ⟨_, rfl, rfl, fun a ha => resetByte_of_not_font ha, fun k hk => ?_, fun r => Vector.getElem_replicate r.isLt,
    rfl, rfl, fun k => Vector.getElem_replicate k.isLt, rfl, rfl, rfl, fun k => Vector.getElem_replicate k.isLt,
    fun k => Vector.getElem_replicate k.isLt, rfl, rfl⟩
  have haddr : (BitVec.ofNat 12 (0x050 + k)).toNat = 0x050 + k := Nat.mod_eq_of_lt (by omega)
  rw [← resetByte_font hk]
  exact congrArg (fun a => some (resetByte a)) haddr

end Sys2Proof.Machine
end

section
/-! The invariant (spec/10_state.md R36): kept by every step, by every transaction, and so true of every reachable
state. -/

namespace Sys2Proof.Machine

/-! An instruction's effect on memory and on the pending return addresses -/

theorem Effect.mem_wf {s t : State} {i : Instr} (h : Effect s i t) (hwf : Memory.wf s.mem = true) :
    Memory.wf t.mem = true := by
  cases h with
  | store a bs => exact State.writeBytes_wf bs a hwf
  | _ => exact hwf

theorem stackInRange_writeBytes {s : State} (h : StackInRange s) (a : Word) (bs : List Byte) :
    StackInRange (s.writeBytes a bs) := by
  intro k hk
  simp only [State.writeBytes_stack, State.writeBytes_sp] at hk ⊢
  exact h k hk

/-- A pushed return address is the `pc` of the state in which the call executes. -/
theorem Effect.stackInRange {s t : State} {i : Instr} (h : Effect s i t) (hs : StackInRange s) (hlo : 2 ≤ s.pc.toNat)
    (hhi : s.pc.toNat ≤ 4096) : StackInRange t := by
  cases h with
  | store a bs => exact stackInRange_writeBytes hs a bs
  | call nnn hsp =>
    intro k hk
    by_cases hks : s.sp.val = k.val
    · simp only [Vector.getElem_set, hks, if_true]
      exact ⟨hlo, hhi⟩
    · simp only [Vector.getElem_set, hks, if_false]
      exact hs k (lt_of_le_of_ne (Nat.le_of_lt_succ hk) (Ne.symm hks))
  | ret w hsp => exact fun k hk => hs k (lt_of_lt_of_le hk (Nat.sub_le _ _))
  | _ => exact hs

/-! The bound on `pc` (R36 (c)): the greatest value is that of `BNNN`, 0xFFF + 0xFF -/

theorem toNat_ite_le {c : Prop} [Decidable c] {a b : Word} {n : Nat} (ha : a.toNat ≤ n) (hb : b.toNat ≤ n) :
    (if c then a else b).toNat ≤ n := by
  split
  · exact ha
  · exact hb

theorem zextAddr_le (nnn : Addr) : (zextAddr nnn).toNat ≤ 0xFFF := by
  rw [zextAddr_toNat]
  exact Nat.le_of_lt_succ nnn.isLt

theorem zextAddr_add_zextByte_le (nnn : Addr) (b : Byte) : (zextAddr nnn + zextByte b).toNat ≤ 0x10FE := by
  have hnnn := zextAddr_le nnn
  have hb := b.isLt
  rw [BitVec.toNat_add, zextByte_toNat]
  omega

theorem pcAfter_ret_le {s : State} (hs : StackInRange s) (hpc : s.pc.toNat ≤ 4096) :
    (pcAfter s .ret).toNat ≤ 4096 := by
  rw [pcAfter]
  split
  · exact hpc
  · next hsp =>
    have hlt := s.sp.isLt
    exact (hs ⟨s.sp.val - 1, by omega⟩ (Nat.sub_lt (Nat.pos_of_ne_zero hsp) Nat.one_pos)).2

theorem pcAfter_le {s : State} (hs : StackInRange s) (hlo : 2 ≤ s.pc.toNat) (hhi : s.pc.toNat ≤ 4096) (i : Instr) :
    (pcAfter s i).toNat ≤ 0x10FE := by
  have hstay : s.pc.toNat ≤ 0x10FE := by omega
  have hskip : (s.pc + 2).toNat ≤ 0x10FE := by
    change (s.pc.toNat + 2) % 65536 ≤ _
    omega
  have hback : (s.pc - 2).toNat ≤ 0x10FE := by
    change (65536 - 2 + s.pc.toNat) % 65536 ≤ _
    omega
  have hjump : ∀ nnn : Addr, (zextAddr nnn).toNat ≤ 0x10FE := fun nnn => (zextAddr_le nnn).trans (by decide)
  cases i
  case jpNnn nnn => exact hjump nnn
  case jpV0Nnn nnn => exact zextAddr_add_zextByte_le nnn _
  case callNnn nnn => exact toNat_ite_le hstay (hjump nnn)
  case ret => exact (pcAfter_ret_le hs hhi).trans (by decide)
  case ldVxK x => exact toNat_ite_le hstay hback
  case seVxNn | sneVxNn | seVxVy | sneVxVy | skpVx | sknpVx => exact toNat_ite_le hskip hstay
  all_goals exact hstay

/-- Settles O52: nothing is listed, no call is pending, and `pc` is 0x200. -/
theorem resetMeetsTheInvariant : Obligations.ResetMeetsTheInvariant :=
  ⟨State.reset_mem_wf, fun k hk => absurd hk (Nat.not_lt_zero k.val), by decide⟩

/-- Settles O53: past the bound check the fetch leaves `pc` in 2..4096, the range of return addresses. -/
theorem stepKeepsTheInvariant : Obligations.StepKeepsTheInvariant := by
  intro s t hinv h
  obtain ⟨hmem, hstack, hpc⟩ := hinv
  rcases step_next_cases h with ⟨-, rfl⟩ | ⟨-, -, rfl⟩ | ⟨-, hbound, -, rfl⟩ | ⟨i, ⟨-, hbound, -⟩, hx⟩
  · exact ⟨hmem, hstack, hpc⟩
  · exact ⟨hmem, hstack, hpc⟩
  · refine ⟨hmem, hstack, ?_⟩
    have hadd := pc_toNat_add_two hbound
    change (s.pc + 2).toNat ≤ _
    omega
  · have hadd : s.advance.pc.toNat = s.pc.toNat + 2 := pc_toNat_add_two hbound
    have heff := effect_of_exec hx
    refine ⟨heff.mem_wf hmem, heff.stackInRange hstack (by omega) (by omega), ?_⟩
    rw [exec_pc hx]
    exact pcAfter_le (s := s.advance) hstack (by omega) (by omega) i

theorem transact_keeps_inv {a : Transaction} {s : State} {r : Response} (hinv : Inv s) (h : transact a s = .next r) :
    Inv r.state := by
  obtain ⟨hmem, hstack, hpc⟩ := hinv
  cases a with
  | new =>
    cases h
    exact ⟨resetMeetsTheInvariant.memory, resetMeetsTheInvariant.stack, resetMeetsTheInvariant.pc⟩
  | loadProgram bytes =>
    rcases Nat.lt_or_ge 3584 bytes.length with hlen | hlen
    · cases (transact_loadProgram_of_gt hlen s).symm.trans h
    · cases (transact_loadProgram_of_le hlen s).symm.trans h
      exact ⟨State.writeBytes_wf bytes _ hmem, stackInRange_writeBytes hstack _ bytes, by simpa using hpc⟩
  | step =>
    obtain ⟨t, ht⟩ := everyStepAnswersANextState s
    cases (transact_step ht).symm.trans h
    exact stepKeepsTheInvariant s t ⟨hmem, hstack, hpc⟩ ht
  | tickTimers =>
    cases h
    exact ⟨hmem, hstack, hpc⟩
  | setKey index pressed =>
    rcases Nat.lt_or_ge index 16 with hindex | hindex
    · cases (transact_setKey_of_lt hindex pressed s).symm.trans h
      exact ⟨hmem, hstack, hpc⟩
    · cases (transact_setKey_of_ge hindex pressed s).symm.trans h
  | framebuffer =>
    cases h
    exact ⟨hmem, hstack, hpc⟩

/-- Settles O54, by induction on the transactions from reset. -/
theorem everyReachableStateMeetsTheInvariant : Obligations.EveryReachableStateMeetsTheInvariant := by
  intro s hs
  induction hs with
  | reset => exact resetMeetsTheInvariant
  | transact s a r _ h ih => exact transact_keeps_inv ih h

end Sys2Proof.Machine
end

section
/-! Runs of transactions from a finished Machine and from an end of run (spec/60_exceptions.md, section 2;
spec/70_reset_and_hazards.md, section 3). -/

namespace Sys2Proof.Machine

/-- `t` is `s` but for timers, key latches and memory. -/
def SameButHostParts (s t : State) : Prop :=
  t = { s with dt := t.dt, st := t.st, key := t.key, mem := t.mem }

theorem SameButHostParts.trans {s t u : State} (hst : SameButHostParts s t) (htu : SameButHostParts t u) :
    SameButHostParts s u := by
  unfold SameButHostParts at *
  rw [htu, hst]

theorem SameButHostParts.runState {s t : State} (h : SameButHostParts s t) : t.runState = s.runState := by
  unfold SameButHostParts at h
  rw [h]

theorem sameButHostParts_writeBytes (s : State) (a : Word) (bs : List Byte) :
    SameButHostParts s (s.writeBytes a bs) := by
  rw [SameButHostParts, State.writeBytes_dt, State.writeBytes_st, State.writeBytes_key]
  exact State.writeBytes_eq bs s a

/-- What a finished Machine is after one transaction other than `new`, and that a run goes on from there. -/
theorem run_cons_of_finished {a : Transaction} {s : State} (hrun : s.runState = .finished) (ha : a ≠ .new) :
    ∃ u, (∀ as, runTransactions (a :: as) s = runTransactions as u) ∧ SameButHostParts s u ∧
      ((∀ bytes, a ≠ .loadProgram bytes) → u.mem = s.mem) := by
  cases a with
  | new => exact absurd rfl ha
  | loadProgram bytes =>
    rcases Nat.lt_or_ge 3584 bytes.length with h | h
    · exact ⟨s, fun as => runTransactions_cons_refused as (transact_loadProgram_of_gt h s), rfl, fun _ => rfl⟩
    · exact ⟨_, fun as => runTransactions_cons_next as (transact_loadProgram_of_le h s),
        sameButHostParts_writeBytes s _ bytes, fun hload => absurd rfl (hload bytes)⟩
  | step =>
    exact ⟨s, fun as => runTransactions_cons_next as (transact_step (step_of_finished hrun)), rfl, fun _ => rfl⟩
  | tickTimers => exact ⟨_, fun as => runTransactions_cons_next as rfl, rfl, fun _ => rfl⟩
  | setKey index pressed =>
    rcases Nat.lt_or_ge index 16 with h | h
    · exact ⟨_, fun as => runTransactions_cons_next as (transact_setKey_of_lt h pressed s), rfl, fun _ => rfl⟩
    · exact ⟨s, fun as => runTransactions_cons_refused as (transact_setKey_of_ge h pressed s), rfl, fun _ => rfl⟩
  | framebuffer => exact ⟨s, fun _ => rfl, rfl, fun _ => rfl⟩

/-- Settles O55, by induction on the word: each transaction leaves the Machine finished. -/
theorem finishedIsAbsorbing : Obligations.FinishedIsAbsorbing := by
  intro as
  induction as with
  | nil => exact fun s _ _ => ⟨s, rfl, rfl, fun _ => rfl⟩
  | cons a as ih =>
    intro s hrun hnew
    rw [List.mem_cons, not_or] at hnew
    obtain ⟨u, hcons, hsame, hmem⟩ := run_cons_of_finished hrun (Ne.symm hnew.1)
    obtain ⟨t, ht, htsame, htmem⟩ := ih u (hsame.runState.trans hrun) hnew.2
    refine ⟨t, (hcons as).trans ht, hsame.trans htsame, fun hload => ?_⟩
    have has : ∀ bytes, .loadProgram bytes ∉ as := fun bytes h => hload bytes (List.mem_cons_of_mem a h)
    have ha : ∀ bytes, a ≠ .loadProgram bytes := fun bytes h => hload bytes (h ▸ List.mem_cons_self)
    exact (htmem has).trans (hmem ha)

theorem step_of_endOfRun {s : State} (h : EndOfRun s) : step s = .next s := by
  rcases h with hrun | hspin
  · exact step_of_finished hrun
  · exact jumpToItselfChangesNothing s hspin

/-- The transactions of a run that is left to itself: all but `new` and `load_program`. -/
def KeepsEndOfRun (a : Transaction) : Prop :=
  a = .step ∨ a = .tickTimers ∨ a = .framebuffer ∨ ∃ index pressed, a = .setKey index pressed

/-- `t` is `s` but for key latches and the timers, which are `n` ticks further. -/
def SameAfterTicks (n : Nat) (s t : State) : Prop :=
  t = { s with dt := t.dt, st := t.st, key := t.key } ∧ t.dt.toNat = s.dt.toNat - n ∧ t.st.toNat = s.st.toNat - n

theorem SameAfterTicks.refl (s : State) : SameAfterTicks 0 s s :=
  ⟨rfl, rfl, rfl⟩

theorem SameAfterTicks.trans {m n : Nat} {s t u : State} (hst : SameAfterTicks m s t) (htu : SameAfterTicks n t u) :
    SameAfterTicks (m + n) s u := by
  obtain ⟨hs, hdt, hst⟩ := hst
  obtain ⟨ht, hdt', hst'⟩ := htu
  refine ⟨?_, by omega, by omega⟩
  rw [ht, hs]

theorem SameAfterTicks.endOfRun {n : Nat} {s t : State} (h : SameAfterTicks n s t) (hend : EndOfRun s) : EndOfRun t :=
  (endOfRun_congr (congrArg State.mem h.1) (congrArg State.pc h.1) (congrArg State.runState h.1)).2 hend

/-- What an end of run is after one of these transactions, and that a run goes on from there. -/
theorem run_cons_of_endOfRun {a : Transaction} {s : State} (hend : EndOfRun s) (ha : KeepsEndOfRun a) :
    ∃ u, (∀ as, runTransactions (a :: as) s = runTransactions as u) ∧ SameAfterTicks ([a].count .tickTimers) s u := by
  rcases ha with rfl | rfl | rfl | ⟨index, pressed, rfl⟩
  · exact ⟨s, fun as => runTransactions_cons_next as (transact_step (step_of_endOfRun hend)), .refl s⟩
  · exact ⟨_, fun as => runTransactions_cons_next as rfl, rfl, tickedTimer_toNat s.dt, tickedTimer_toNat s.st⟩
  · exact ⟨s, fun _ => rfl, .refl s⟩
  · rcases Nat.lt_or_ge index 16 with h | h
    · exact ⟨_, fun as => runTransactions_cons_next as (transact_setKey_of_lt h pressed s), rfl, rfl, rfl⟩
    · exact ⟨s, fun as => runTransactions_cons_refused as (transact_setKey_of_ge h pressed s), .refl s⟩

theorem run_of_endOfRun : ∀ (as : List Transaction) {s : State}, EndOfRun s → (∀ a ∈ as, KeepsEndOfRun a) →
    ∃ t, runTransactions as s = .next t ∧ EndOfRun t ∧ SameAfterTicks (as.count .tickTimers) s t
  | [], s, hend, _ => ⟨s, rfl, hend, .refl s⟩
  | a :: as, s, hend, has => by
    obtain ⟨u, hcons, hu⟩ := run_cons_of_endOfRun hend (has a List.mem_cons_self)
    obtain ⟨t, ht, htend, hut⟩ := run_of_endOfRun as (hu.endOfRun hend) fun b hb => has b (List.mem_cons_of_mem a hb)
    have hcount : (a :: as).count .tickTimers = [a].count .tickTimers + as.count .tickTimers :=
      List.count_append (l₁ := [a])
    exact ⟨t, (hcons as).trans ht, htend, hcount ▸ hu.trans hut⟩

/-- Settles O58: a step at an end of run changes nothing, and the others move only the timers and the latches. -/
theorem endOfRunLasts : Obligations.EndOfRunLasts :=
  fun as _ hend has => run_of_endOfRun as hend has

end Sys2Proof.Machine
end

section
/-! What a step does not see (spec/10_state.md R25; spec/90_conflicts.md C10; spec/60_exceptions.md, section 5): stale
stack slots, the high bits of `I`, and the timers but for the three timer instructions. Each is a relation between two
states that a step from both keeps. -/

namespace Sys2Proof.Machine

/-- A relation between states of the same memory, `pc` and run state is kept by the step when it is kept by the steps
that execute nothing and by every instruction that the first state executes. -/
theorem step_keeps {R : State → State → Prop} {s s' t : State} (hmem : s'.mem = s.mem) (hpc : s'.pc = s.pc)
    (hrun : s'.runState = s.runState) (hidle : R s s') (hbounds : R s.takeOutOfBounds s'.takeOutOfBounds)
    (hillegal : R s.takeDecodeError s'.takeDecodeError)
    (hexec : ∀ i, Executes s i → exec i s.advance = .next t → ∃ t', exec i s'.advance = .next t' ∧ R t t')
    (h : step s = .next t) : ∃ t', step s' = .next t' ∧ R t t' := by
  have hword : wordAtPc s' = wordAtPc s := by simp only [wordAtPc, State.readMem, hmem, hpc]
  rcases step_next_cases h with ⟨hs, rfl⟩ | ⟨hs, hbound, rfl⟩ | ⟨hs, hbound, hill, rfl⟩ | ⟨i, hi, hx⟩
  · exact ⟨_, step_of_finished (hrun.trans hs), hidle⟩
  · exact ⟨_, step_of_outOfBounds (hrun.trans hs) (hpc ▸ hbound), hbounds⟩
  · exact ⟨_, step_of_illegal (hrun.trans hs) (hpc ▸ hbound) (hword ▸ hill), hillegal⟩
  · obtain ⟨t', ht', hR⟩ := hexec i hi hx
    exact ⟨t', (step_of_executes ((executes_congr hmem hpc hrun).2 hi)).trans ht', hR⟩

/-! The hidden parts: `I` but for its effective address, the stack and the timers -/

/-- `s` with other hidden parts. -/
def State.withHidden (s : State) (w : Word) (stack : Vector Word 16) (dt st : Byte) : State :=
  { s with i := w, stack := stack, dt := dt, st := st }

/-- The instructions that see or move a hidden part otherwise than through the address `ea(I)`. -/
def usesHidden : Instr → Bool
  | .ret | .callNnn _ | .ldINnn _ | .addIVx _ | .ldFVx _ | .ldVxDt _ | .ldDtVx _ | .ldStVx _ => true
  | _ => false

theorem usesHidden_cases (i : Instr) : usesHidden i = false ∨ i = .ret ∨ (∃ nnn, i = .callNnn nnn) ∨
    (∃ nnn, i = .ldINnn nnn) ∨ (∃ x, i = .addIVx x) ∨ (∃ x, i = .ldFVx x) ∨
    ∃ x, i = .ldVxDt x ∨ i = .ldDtVx x ∨ i = .ldStVx x := by
  cases i <;> simp [usesHidden]

theorem Effect.hidden_eq {s t : State} {i : Instr} (h : Effect s i t) (hi : usesHidden i = false) :
    t.i = s.i ∧ t.stack = s.stack ∧ t.sp = s.sp ∧ t.dt = s.dt ∧ t.st = s.st := by
  cases h with
  | index w hidx => rcases hidx with ⟨nnn, rfl⟩ | ⟨x, rfl | rfl⟩ <;> cases hi
  | store => simp
  | delay | sound | call | overflow | ret | underflow => cases hi
  | _ => exact ⟨rfl, rfl, rfl, rfl, rfl⟩

theorem State.writeBytes_congr : ∀ (bs : List Byte) (s : State) {a b : Word}, ea a = ea b →
    s.writeBytes a bs = s.writeBytes b bs
  | [], _, _, _, _ => rfl
  | c :: bs, s, a, b, h => by
    rw [State.writeBytes, State.writeBytes, h, State.writeBytes_congr bs _ (ea_add_congr h 1)]

theorem State.readBytes_congr (s : State) : ∀ (n : Nat) {a b : Word}, ea a = ea b → s.readBytes a n = s.readBytes b n
  | 0, _, _, _ => rfl
  | n + 1, a, b, h => by
    rw [State.readBytes, State.readBytes, h, State.readBytes_congr s n (ea_add_congr h 1)]

section
variable (s : State) {w : Word} (hw : ea w = ea s.i) (k : Vector Word 16) (dt st : Byte)

theorem State.writeBytes_withHidden : ∀ (bs : List Byte) (s : State) (a : Word),
    (s.withHidden w k dt st).writeBytes a bs = (s.writeBytes a bs).withHidden w k dt st
  | [], _, _ => rfl
  | b :: bs, s, a => State.writeBytes_withHidden bs (s.writeMem (ea a) b) (a + 1)

theorem State.setRegs_withHidden : ∀ (rs : List Reg) (bs : List Byte) (s : State),
    (s.withHidden w k dt st).setRegs rs bs = (s.setRegs rs bs).withHidden w k dt st
  | [], _, _ => rfl
  | _ :: _, [], _ => rfl
  | r :: rs, b :: bs, s => State.setRegs_withHidden rs bs (s.setReg r b)

theorem State.readBytes_withHidden (a : Word) (n : Nat) : (s.withHidden w k dt st).readBytes a n = s.readBytes a n :=
  State.readBytes_eq_of_mem (s := s) (t := s.withHidden w k dt st) rfl a n

theorem State.skipIf_withHidden (c : Bool) :
    (s.withHidden w k dt st).skipIf c = (s.skipIf c).withHidden w k dt st := by
  cases c <;> rfl

include hw

/-- The other instructions neither see nor move the hidden parts. -/
theorem exec_withHidden {i : Instr} {t : State} (hi : usesHidden i = false) (h : exec i s = .next t) :
    exec i (s.withHidden w k dt st) = .next (t.withHidden w k dt st) := by
  cases i
  case ret | callNnn | ldINnn | addIVx | ldFVx | ldVxDt | ldDtVx | ldStVx => cases hi
  case seVxNn | sneVxNn | seVxVy | sneVxVy | skpVx | sknpVx =>
    cases h
    exact congrArg Host.Outcome.next (State.skipIf_withHidden s k dt st _)
  case ldVxK x =>
    rcases eq_of_exec_ldVxK h with ⟨hkey, rfl⟩ | ⟨key, hkey, rfl⟩
    · exact exec_ldVxK_of_none x (s := s.withHidden w k dt st) hkey
    · exact exec_ldVxK_of_some x (s := s.withHidden w k dt st) hkey
  case drwVxVyN x y n =>
    cases h
    have hrows : (s.withHidden w k dt st).spriteRows n = s.spriteRows n :=
      (State.readBytes_withHidden s k dt st w _).trans (State.readBytes_congr s _ hw)
    rw [exec_drwVxVyN, State.spriteBlit, hrows]
    rfl
  case ldBVx | ldMiVx =>
    cases h
    exact congrArg Host.Outcome.next ((State.writeBytes_withHidden k dt st _ s w).trans
      (congrArg (State.withHidden · w k dt st) (State.writeBytes_congr _ s hw)))
  case ldVxMi x =>
    cases h
    have hbytes := (State.readBytes_withHidden (w := w) s k dt st w _).trans (State.readBytes_congr s (x.val + 1) hw)
    exact congrArg Host.Outcome.next ((congrArg ((s.withHidden w k dt st).setRegs (regsUpTo x)) hbytes).trans
      (State.setRegs_withHidden k dt st _ _ s))
  all_goals
    cases h
    rfl

end

/-! Timers -/

/-- An instruction that is none of the three timer instructions neither sees nor moves the timers. -/
theorem exec_tickTimers {i : Instr} {s t : State} (hi : ¬ ∃ x, i = .ldVxDt x ∨ i = .ldDtVx x ∨ i = .ldStVx x)
    (h : exec i s = .next t) : exec i (tickTimers s) = .next (tickTimers t) := by
  rcases usesHidden_cases i with hid | rfl | ⟨nnn, rfl⟩ | ⟨nnn, rfl⟩ | ⟨x, rfl⟩ | ⟨x, rfl⟩ | htimer
  · have hx := exec_withHidden s (w := s.i) rfl s.stack (tickedTimer s.dt) (tickedTimer s.st) hid h
    obtain ⟨hidx, hstack, -, hdt, hst⟩ := (effect_of_exec h).hidden_eq hid
    have htick : t.withHidden s.i s.stack (tickedTimer s.dt) (tickedTimer s.st) = tickTimers t := by
      rw [← hidx, ← hstack, ← hdt, ← hst]
      rfl
    exact hx.trans (congrArg Host.Outcome.next htick)
  · rcases eq_of_exec_ret h with ⟨hsp, rfl⟩ | ⟨hsp, rfl⟩
    · exact exec_ret_of_empty (s := tickTimers s) hsp
    · exact exec_ret_of_pos (s := tickTimers s) hsp
  · rcases eq_of_exec_callNnn h with ⟨hsp, rfl⟩ | ⟨hsp, rfl⟩
    · exact exec_callNnn_of_full nnn (s := tickTimers s) hsp
    · exact exec_callNnn_of_lt nnn (s := tickTimers s) hsp
  · cases h
    rfl
  · cases h
    rfl
  · cases h
    rfl
  · exact absurd htimer hi

/-- Settles O46: the tick keeps `pc`, memory and the run state, so the step goes the same way. -/
theorem ticksCommuteWithOtherSteps : Obligations.TicksCommuteWithOtherSteps := by
  intro s t h htimer
  have hexec : ∀ i, Executes s i → exec i s.advance = .next t →
      ∃ t', exec i (tickTimers s).advance = .next t' ∧ t' = tickTimers t := by
    intro i hi hx
    refine ⟨_, exec_tickTimers (s := s.advance) ?_ hx, rfl⟩
    rintro ⟨x, rfl | rfl | rfl⟩
    · exact htimer ⟨x, .inl hi⟩
    · exact htimer ⟨x, .inr (.inl hi)⟩
    · exact htimer ⟨x, .inr (.inr hi)⟩
  obtain ⟨t', ht', rfl⟩ := step_keeps (R := fun a b => b = tickTimers a) (s := s) (s' := tickTimers s) rfl rfl rfl
    rfl rfl rfl hexec h
  exact ht'

/-! Stale stack slots -/

theorem exec_staleSlots {i : Instr} {s t : State} {k : Vector Word 16}
    (hk : ∀ j : Fin 16, j.val < s.sp.val → k[j.val] = s.stack[j.val]) (h : exec i s = .next t) :
    ∃ t', exec i { s with stack := k } = .next t' ∧ SameButStaleSlots t t' := by
  rcases usesHidden_cases i with hid | rfl | ⟨nnn, rfl⟩ | ⟨nnn, rfl⟩ | ⟨x, rfl⟩ | ⟨x, rfl⟩ | ⟨x, rfl | rfl | rfl⟩
  · obtain ⟨hidx, hstack, hsp, hdt, hst⟩ := (effect_of_exec h).hidden_eq hid
    refine ⟨_, exec_withHidden s rfl k s.dt s.st hid h, ?_, ?_⟩
    · rw [← hidx, ← hdt, ← hst]
      rfl
    · rw [hsp, hstack]
      exact hk
  · rcases eq_of_exec_ret h with ⟨hsp, rfl⟩ | ⟨hsp, rfl⟩
    · exact ⟨_, exec_ret_of_empty (s := { s with stack := k }) hsp, rfl, hk⟩
    · have hlt := s.sp.isLt
      have hslot := hk ⟨s.sp.val - 1, by omega⟩ (Nat.sub_lt hsp Nat.one_pos)
      refine ⟨_, exec_ret_of_pos (s := { s with stack := k }) hsp, ?_,
        fun j hj => hk j (lt_of_lt_of_le hj (Nat.sub_le _ _))⟩
      simp only [hslot]
  · rcases eq_of_exec_callNnn h with ⟨hsp, rfl⟩ | ⟨hsp, rfl⟩
    · exact ⟨_, exec_callNnn_of_full nnn (s := { s with stack := k }) hsp, rfl, hk⟩
    · refine ⟨_, exec_callNnn_of_lt nnn (s := { s with stack := k }) hsp, rfl, fun j hj => ?_⟩
      by_cases hjs : s.sp.val = j.val
      · simp only [Vector.getElem_set, hjs, if_true]
      · simp only [Vector.getElem_set, hjs, if_false]
        exact hk j (lt_of_le_of_ne (Nat.le_of_lt_succ hj) (Ne.symm hjs))
  all_goals
    cases h
    exact ⟨_, rfl, rfl, hk⟩

/-- Settles O56: a call writes the slot that it makes pending, and a return reads a pending one. -/
theorem staleStackSlotsAreUnobservable : Obligations.StaleStackSlotsAreUnobservable := by
  rintro s s' t ⟨heq, hk⟩ h
  generalize s'.stack = k at heq hk
  subst heq
  exact step_keeps (R := SameButStaleSlots) (s := s) (s' := { s with stack := k }) rfl rfl rfl
    ⟨rfl, hk⟩ ⟨rfl, hk⟩ ⟨rfl, hk⟩
    (fun i _ hx => exec_staleSlots (s := s.advance) hk hx) h

/-! The high bits of `I` -/

theorem exec_highIndex {i : Instr} {s t : State} {w : Word} (hw : ea w = ea s.i) (h : exec i s = .next t) :
    ∃ t', exec i { s with i := w } = .next t' ∧ SameButHighIndex t t' := by
  rcases usesHidden_cases i with hid | rfl | ⟨nnn, rfl⟩ | ⟨nnn, rfl⟩ | ⟨x, rfl⟩ | ⟨x, rfl⟩ | ⟨x, rfl | rfl | rfl⟩
  · obtain ⟨hidx, hstack, -, hdt, hst⟩ := (effect_of_exec h).hidden_eq hid
    refine ⟨_, exec_withHidden s hw s.stack s.dt s.st hid h, ?_, hidx ▸ hw⟩
    rw [← hstack, ← hdt, ← hst]
    rfl
  · rcases eq_of_exec_ret h with ⟨hsp, rfl⟩ | ⟨hsp, rfl⟩
    · exact ⟨_, exec_ret_of_empty (s := { s with i := w }) hsp, rfl, hw⟩
    · exact ⟨_, exec_ret_of_pos (s := { s with i := w }) hsp, rfl, hw⟩
  · rcases eq_of_exec_callNnn h with ⟨hsp, rfl⟩ | ⟨hsp, rfl⟩
    · exact ⟨_, exec_callNnn_of_full nnn (s := { s with i := w }) hsp, rfl, hw⟩
    · exact ⟨_, exec_callNnn_of_lt nnn (s := { s with i := w }) hsp, rfl, hw⟩
  · cases h
    exact ⟨_, rfl, rfl, rfl⟩
  · cases h
    exact ⟨_, rfl, rfl, ea_add_congr hw _⟩
  · cases h
    exact ⟨_, rfl, rfl, rfl⟩
  all_goals
    cases h
    exact ⟨_, rfl, rfl, hw⟩

/-- Settles O57: every address formed from `I` is masked, and a sum keeps the difference above the mask. -/
theorem highBitsOfIAreUnobservable : Obligations.HighBitsOfIAreUnobservable := by
  rintro s s' t ⟨heq, hw⟩ h
  generalize s'.i = w at heq hw
  subst heq
  exact step_keeps (R := SameButHighIndex) (s := s) (s' := { s with i := w }) rfl rfl rfl
    ⟨rfl, hw⟩ ⟨rfl, hw⟩ ⟨rfl, hw⟩
    (fun i _ hx => exec_highIndex (s := s.advance) hw hx) h

end Sys2Proof.Machine
end
